-- ==== Sys2Proof/Word.lean ====
section
/-! DEFINITION. The machine's word types (spec/00_scope.md rules R7 to R9, R13, R14). -/

namespace Sys2Proof

/-- A Word: "an unsigned 32-bit value; the unit of instruction fetch and aligned memory transfer" (R7).
Registers, pc, addresses and immediates are Words; `+` and `-` on them are modulo 2^32 (R14, log 11). -/
abbrev Word := BitVec 32

/-- A byte of memory (R60). -/
abbrev Byte := BitVec 8

/-- A register index: "5-bit values in [0,31]; index 0 denotes the hardwired-zero register" (R8). -/
abbrev RegIx := BitVec 5

end Sys2Proof
end

