-- ==== Sys2Proof/Config.lean ====
section
/-! DEFINITION. The implementation parameters of spec/00_scope.md rule R11. The ones that can be told apart by plain
data are a record `Params`, which State carries as a part no instruction changes (log 1); the two environment
functions, which cannot be data, are the uninterpreted constants of Machine/Environment.lean, and `Params` only says
whether they are in use (logs 8, 9). `INITIAL_IMAGE` is an argument of the loader operation (Machine/Loader.lean). -/

namespace Sys2Proof

/-- What a misaligned access does: `DATA_ALIGN_POLICY` (R69, D4) and `FETCH_ALIGN_POLICY` (R152, D5) take these two
values. -/
inductive AlignPolicy where
  /-- a misaligned access raises `UnalignedAccess` -/
  | trap
  /-- no check is made: the access goes to the containing aligned word -/
  | mask
  deriving DecidableEq, Repr, Inhabited

/-- `FENCE_POLICY`: how a MISC-MEM word decodes (R112, D10). -/
inductive FencePolicy where
  /-- every MISC-MEM word is `Unknown(UnknownOpcode, w)` -/
  | unknown
  /-- a MISC-MEM word with funct3 000 or 001 is `addi x0, x0, 0` -/
  | nop
  deriving DecidableEq, Repr, Inhabited

/-- Whether the embedding supplies `SYSTEM_HOOK` (R157, D11). What a present hook does is the uninterpreted constant
`Config.systemHook` (log 8). -/
inductive HookPolicy where
  | absent
  | present
  deriving DecidableEq, Repr, Inhabited

/-- `HALT_PRED`: the embedding environment's halt condition, "a predicate on the whole state (it may look at pc, at
the word at pc or at registers)" (R153, D17). The predicates the spec names are written as data; `environment` stands
for any other, the uninterpreted constant `Config.haltPredicate` (log 9). -/
inductive HaltPred where
  /-- the default: never true -/
  | never
  /-- pc equals `a` -/
  | pcIs (a : Word)
  /-- the word a fetch at pc reads equals `w` ("a given instruction word at pc", D17) -/
  | wordIs (w : Word)
  /-- register `r` reads `v` -/
  | regIs (r : RegIx) (v : Word)
  /-- some other predicate of the environment's -/
  | environment
  deriving DecidableEq, Repr, Inhabited

/-- The parameters of rule R11 that a step reads. -/
structure Params where
  dataAlign  : AlignPolicy
  fetchAlign : AlignPolicy
  fence      : FencePolicy
  systemHook : HookPolicy
  haltPred   : HaltPred
  deriving DecidableEq, Repr, Inhabited

/-- The column "default" of rule R11's table. -/
def Params.default : Params where
  dataAlign  := .trap
  fetchAlign := .mask
  fence      := .unknown
  systemHook := .absent
  haltPred   := .never

/-- The `ENTRY_PC` that `State.reset` takes. R11 gives it no default ("supplied by the loader"). DESIGN CHOICE: 0
(log 2, unsafe). `State.create` (Machine/Loader.lean) takes any other. -/
def Config.entryPc : Word := 0#32

end Sys2Proof
end

