-- ==== Sys2Proof/Syntax.lean ====
section
/-! DEFINITION. The instructions: one constructor per row of spec/opcode_table.json, in the table's order, each with the
fields of its format (spec/10_state.md rule R42; spec/30_encoding.md rules R101 to R106, R110). Immediates are the
32-bit values after extension; which of them an encoding can hold is WellFormed.lean (log 20). The decoder's `Unknown`
variant is no row of the table and stands in `Decoded` (Decode.lean, log 16). -/

namespace Sys2Proof

inductive Instr where
  -- register-register (41_register_register.md)
  | add  (rd rs1 rs2 : RegIx)
  | sub  (rd rs1 rs2 : RegIx)
  | sll  (rd rs1 rs2 : RegIx)
  | slt  (rd rs1 rs2 : RegIx)
  | sltu (rd rs1 rs2 : RegIx)
  | xor  (rd rs1 rs2 : RegIx)
  | srl  (rd rs1 rs2 : RegIx)
  | sra  (rd rs1 rs2 : RegIx)
  | or   (rd rs1 rs2 : RegIx)
  | and  (rd rs1 rs2 : RegIx)
  -- register-immediate (42_register_immediate.md)
  | addi  (rd rs1 : RegIx) (imm : Word)
  | slti  (rd rs1 : RegIx) (imm : Word)
  | sltiu (rd rs1 : RegIx) (imm : Word)
  | xori  (rd rs1 : RegIx) (imm : Word)
  | ori   (rd rs1 : RegIx) (imm : Word)
  | andi  (rd rs1 : RegIx) (imm : Word)
  | slli  (rd rs1 : RegIx) (shamt : BitVec 5)
  | srli  (rd rs1 : RegIx) (shamt : BitVec 5)
  | srai  (rd rs1 : RegIx) (shamt : BitVec 5)
  -- loads (43_loads.md)
  | lb  (rd rs1 : RegIx) (imm : Word)
  | lh  (rd rs1 : RegIx) (imm : Word)
  | lw  (rd rs1 : RegIx) (imm : Word)
  | lbu (rd rs1 : RegIx) (imm : Word)
  | lhu (rd rs1 : RegIx) (imm : Word)
  -- stores (44_stores.md): rs1 = base, rs2 = value
  | sb (rs1 rs2 : RegIx) (imm : Word)
  | sh (rs1 rs2 : RegIx) (imm : Word)
  | sw (rs1 rs2 : RegIx) (imm : Word)
  -- branches (45_branches.md)
  | beq  (rs1 rs2 : RegIx) (imm : Word)
  | bne  (rs1 rs2 : RegIx) (imm : Word)
  | blt  (rs1 rs2 : RegIx) (imm : Word)
  | bge  (rs1 rs2 : RegIx) (imm : Word)
  | bltu (rs1 rs2 : RegIx) (imm : Word)
  | bgeu (rs1 rs2 : RegIx) (imm : Word)
  -- jumps (46_jumps.md)
  | jal  (rd : RegIx) (imm : Word)
  | jalr (rd rs1 : RegIx) (imm : Word)
  -- upper immediate (47_upper_immediate.md)
  | lui   (rd : RegIx) (imm : Word)
  | auipc (rd : RegIx) (imm : Word)
  deriving DecidableEq, Repr, Inhabited

/-- The mnemonic of an instruction's row of spec/opcode_table.json. -/
def Instr.mnemonic : Instr → String
  | .add .. => "add" | .sub .. => "sub" | .sll .. => "sll" | .slt .. => "slt" | .sltu .. => "sltu"
  | .xor .. => "xor" | .srl .. => "srl" | .sra .. => "sra" | .or .. => "or" | .and .. => "and"
  | .addi .. => "addi" | .slti .. => "slti" | .sltiu .. => "sltiu" | .xori .. => "xori" | .ori .. => "ori"
  | .andi .. => "andi" | .slli .. => "slli" | .srli .. => "srli" | .srai .. => "srai"
  | .lb .. => "lb" | .lh .. => "lh" | .lw .. => "lw" | .lbu .. => "lbu" | .lhu .. => "lhu"
  | .sb .. => "sb" | .sh .. => "sh" | .sw .. => "sw"
  | .beq .. => "beq" | .bne .. => "bne" | .blt .. => "blt" | .bge .. => "bge" | .bltu .. => "bltu" | .bgeu .. => "bgeu"
  | .jal .. => "jal" | .jalr .. => "jalr" | .lui .. => "lui" | .auipc .. => "auipc"

end Sys2Proof
end

