-- ==== Sys2Proof/WellFormed.lean ====
section
/-! DEFINITION. Which instructions an encoding exists for: the immediate lies in the range its format gives it
(spec/30_encoding.md rules R102 to R106). Register indices and shift amounts are 5 bits by type. -/

namespace Sys2Proof

/-- I- and S-immediates: "Range -2048..2047" (R102, R103). -/
def Imm.fits12 (imm : Word) : Bool := decide (-2048 ≤ imm.toInt) && decide (imm.toInt ≤ 2047)

/-- B-immediates: "Range -4096..4094, always even" (R104). -/
def Imm.fits13Even (imm : Word) : Bool :=
  decide (-4096 ≤ imm.toInt) && decide (imm.toInt ≤ 4094) && !imm.getLsbD 0

/-- J-immediates: "Range -1048576..1048574, always even" (R106). -/
def Imm.fits21Even (imm : Word) : Bool :=
  decide (-1048576 ≤ imm.toInt) && decide (imm.toInt ≤ 1048574) && !imm.getLsbD 0

/-- U-immediates: bits 11..0 are zero (R105). -/
def Imm.lowClear (imm : Word) : Bool := decide (imm &&& 0xFFF#32 = 0#32)

/-- The instruction is one that a word of its row encodes. -/
def Instr.wellFormed : Instr → Bool
  | .add _ _ _ | .sub _ _ _ | .sll _ _ _ | .slt _ _ _ | .sltu _ _ _ | .xor _ _ _ | .srl _ _ _ | .sra _ _ _ | .or _ _ _
  | .and _ _ _ | .slli _ _ _ | .srli _ _ _ | .srai _ _ _ => true
  | .addi _ _ imm | .slti _ _ imm | .sltiu _ _ imm | .xori _ _ imm | .ori _ _ imm | .andi _ _ imm
  | .lb _ _ imm | .lh _ _ imm | .lw _ _ imm | .lbu _ _ imm | .lhu _ _ imm | .jalr _ _ imm => Imm.fits12 imm
  | .sb _ _ imm | .sh _ _ imm | .sw _ _ imm => Imm.fits12 imm
  | .beq _ _ imm | .bne _ _ imm | .blt _ _ imm | .bge _ _ imm | .bltu _ _ imm | .bgeu _ _ imm => Imm.fits13Even imm
  | .jal _ imm => Imm.fits21Even imm
  | .lui _ imm | .auipc _ imm => Imm.lowClear imm

end Sys2Proof
end

