-- ==== Sys2Proof/Decode.lean ====
section
/-! DEFINITION. The Instruction Decoder (spec/30_encoding.md): fields, sign extension, immediates, the dispatch of rule
R111, the encoder written from the same layouts (R101), byte order of an instruction word (R66), and the opcode table.
The opcode and funct3 numbers and the rs1 and rs2 positions are the spec's general-knowledge values (R108, D6; log 4,
UNVERIFIED, unsafe). -/

namespace Sys2Proof

/-! ### Fields (R100) -/

/-- "opcode = word & 0x7F (bits 0-6)" -/
def Field.opcode (w : Word) : BitVec 7 := w.extractLsb' 0 7
/-- rd, bits 11:7 -/
def Field.rd (w : Word) : RegIx := w.extractLsb' 7 5
/-- funct3, bits 14:12 -/
def Field.funct3 (w : Word) : BitVec 3 := w.extractLsb' 12 3
/-- rs1, bits 19:15 -/
def Field.rs1 (w : Word) : RegIx := w.extractLsb' 15 5
/-- rs2, bits 24:20 (the shift amount `shamt` of the I-type shifts, R101) -/
def Field.rs2 (w : Word) : RegIx := w.extractLsb' 20 5
/-- funct7, bits 31:25 -/
def Field.funct7 (w : Word) : BitVec 7 := w.extractLsb' 25 7

/-! ### Extension (spec/00_scope.md R15) -/

/-- `sext_N(v)`: bits N-1..0 are v, the bits above equal v[N-1]. -/
def sext {n : Nat} (v : BitVec n) : Word := v.signExtend 32
/-- `zext_N(v)`: bits N-1..0 are v, the bits above are 0. -/
def zext {n : Nat} (v : BitVec n) : Word := v.setWidth 32

/-! ### Immediates (R102 to R106) -/

/-- `immI = sext_12(w[31:20])` -/
def Field.immI (w : Word) : Word := sext (w.extractLsb' 20 12)
/-- `immS = sext_12({w[31:25], w[11:7]})` -/
def Field.immS (w : Word) : Word := sext (w.extractLsb' 25 7 ++ w.extractLsb' 7 5)
/-- `immB = sext_13({w[31], w[7], w[30:25], w[11:8], 0b0})` -/
def Field.immB (w : Word) : Word :=
  sext (w.extractLsb' 31 1 ++ w.extractLsb' 7 1 ++ w.extractLsb' 25 6 ++ w.extractLsb' 8 4 ++ 0#1)
/-- `immU = {w[31:12], 0x000}` -/
def Field.immU (w : Word) : Word := w.extractLsb' 12 20 ++ 0#12
/-- `immJ = sext_21({w[31], w[19:12], w[20], w[30:21], 0b0})` -/
def Field.immJ (w : Word) : Word :=
  sext (w.extractLsb' 31 1 ++ w.extractLsb' 12 8 ++ w.extractLsb' 20 1 ++ w.extractLsb' 21 10 ++ 0#1)

/-! ### The decoder -/

/-- The two kinds an `Unknown` value can carry (R42, D12). -/
inductive UnknownKind where
  /-- `UnknownOpcode`: "opcode byte not in the supported set" (R300) -/
  | opcode
  /-- `UnknownFunctionCode`: a supported opcode with an unsupported function code (R300, R114) -/
  | functionCode
  deriving DecidableEq, Repr, Inhabited

/-- The decoder's output (R42): one of the 37 instructions, or `Unknown(kind, word)` (log 16). -/
inductive Decoded where
  | instr (i : Instr)
  | unknown (kind : UnknownKind) (word : Word)
  deriving DecidableEq, Repr, Inhabited

/-- Opcode 0x33, R-type: funct7 0x00 for all eight, 0x20 only with funct3 000 and 101 (R107, R111, D7; log 10). -/
def decodeOp (w : Word) : Decoded :=
  let rd := Field.rd w
  let rs1 := Field.rs1 w
  let rs2 := Field.rs2 w
  let f3 := Field.funct3 w
  let f7 := Field.funct7 w
  if f7 = 0x00#7 then
    if f3 = 0#3 then .instr (.add rd rs1 rs2)
    else if f3 = 1#3 then .instr (.sll rd rs1 rs2)
    else if f3 = 2#3 then .instr (.slt rd rs1 rs2)
    else if f3 = 3#3 then .instr (.sltu rd rs1 rs2)
    else if f3 = 4#3 then .instr (.xor rd rs1 rs2)
    else if f3 = 5#3 then .instr (.srl rd rs1 rs2)
    else if f3 = 6#3 then .instr (.or rd rs1 rs2)
    else .instr (.and rd rs1 rs2)
  else if f7 = 0x20#7 ∧ f3 = 0#3 then .instr (.sub rd rs1 rs2)
  else if f7 = 0x20#7 ∧ f3 = 5#3 then .instr (.sra rd rs1 rs2)
  else .unknown .functionCode w

/-- Opcode 0x13, I-type arithmetic: funct7 is consulted for the shifts only (R107, R111, D8, C3; log 10). -/
def decodeOpImm (w : Word) : Decoded :=
  let rd := Field.rd w
  let rs1 := Field.rs1 w
  let imm := Field.immI w
  let shamt := Field.rs2 w
  let f3 := Field.funct3 w
  let f7 := Field.funct7 w
  if f3 = 0#3 then .instr (.addi rd rs1 imm)
  else if f3 = 2#3 then .instr (.slti rd rs1 imm)
  else if f3 = 3#3 then .instr (.sltiu rd rs1 imm)
  else if f3 = 4#3 then .instr (.xori rd rs1 imm)
  else if f3 = 6#3 then .instr (.ori rd rs1 imm)
  else if f3 = 7#3 then .instr (.andi rd rs1 imm)
  else if f3 = 1#3 then
    if f7 = 0x00#7 then .instr (.slli rd rs1 shamt) else .unknown .functionCode w
  else
    if f7 = 0x00#7 then .instr (.srli rd rs1 shamt)
    else if f7 = 0x20#7 then .instr (.srai rd rs1 shamt)
    else .unknown .functionCode w

/-- Opcode 0x03, loads (R111). -/
def decodeLoad (w : Word) : Decoded :=
  let rd := Field.rd w
  let rs1 := Field.rs1 w
  let imm := Field.immI w
  let f3 := Field.funct3 w
  if f3 = 0#3 then .instr (.lb rd rs1 imm)
  else if f3 = 1#3 then .instr (.lh rd rs1 imm)
  else if f3 = 2#3 then .instr (.lw rd rs1 imm)
  else if f3 = 4#3 then .instr (.lbu rd rs1 imm)
  else if f3 = 5#3 then .instr (.lhu rd rs1 imm)
  else .unknown .functionCode w

/-- Opcode 0x23, stores (R111). -/
def decodeStore (w : Word) : Decoded :=
  let rs1 := Field.rs1 w
  let rs2 := Field.rs2 w
  let imm := Field.immS w
  let f3 := Field.funct3 w
  if f3 = 0#3 then .instr (.sb rs1 rs2 imm)
  else if f3 = 1#3 then .instr (.sh rs1 rs2 imm)
  else if f3 = 2#3 then .instr (.sw rs1 rs2 imm)
  else .unknown .functionCode w

/-- Opcode 0x63, branches (R111). -/
def decodeBranch (w : Word) : Decoded :=
  let rs1 := Field.rs1 w
  let rs2 := Field.rs2 w
  let imm := Field.immB w
  let f3 := Field.funct3 w
  if f3 = 0#3 then .instr (.beq rs1 rs2 imm)
  else if f3 = 1#3 then .instr (.bne rs1 rs2 imm)
  else if f3 = 4#3 then .instr (.blt rs1 rs2 imm)
  else if f3 = 5#3 then .instr (.bge rs1 rs2 imm)
  else if f3 = 6#3 then .instr (.bltu rs1 rs2 imm)
  else if f3 = 7#3 then .instr (.bgeu rs1 rs2 imm)
  else .unknown .functionCode w

/-- Opcode 0x67, jalr: only funct3 000 (R111, D9; log 10). -/
def decodeJalr (w : Word) : Decoded :=
  if Field.funct3 w = 0#3 then .instr (.jalr (Field.rd w) (Field.rs1 w) (Field.immI w))
  else .unknown .functionCode w

/-- Opcode 0x0F, MISC-MEM, per `FENCE_POLICY` (R112, D10; log 7). -/
def decodeMiscMem (fp : FencePolicy) (w : Word) : Decoded :=
  match fp with
  | .unknown => .unknown .opcode w
  | .nop =>
    if Field.funct3 w = 0#3 ∨ Field.funct3 w = 1#3 then .instr (.addi 0#5 0#5 0#32)
    else .unknown .functionCode w

/-- The decoding algorithm of R111: total, a function of the word (and of `FENCE_POLICY`) alone. A SYSTEM word (opcode
0x73) is among the unknown opcodes (R113). -/
def decode (fp : FencePolicy) (w : Word) : Decoded :=
  let opc := Field.opcode w
  if opc = 0x33#7 then decodeOp w
  else if opc = 0x13#7 then decodeOpImm w
  else if opc = 0x03#7 then decodeLoad w
  else if opc = 0x23#7 then decodeStore w
  else if opc = 0x63#7 then decodeBranch w
  else if opc = 0x37#7 then .instr (.lui (Field.rd w) (Field.immU w))
  else if opc = 0x17#7 then .instr (.auipc (Field.rd w) (Field.immU w))
  else if opc = 0x6F#7 then .instr (.jal (Field.rd w) (Field.immJ w))
  else if opc = 0x67#7 then decodeJalr w
  else if opc = 0x0F#7 then decodeMiscMem fp w
  else .unknown .opcode w

/-! ### The encoder: the layouts of R101, the fixed values of R108 -/

/-- R-type: `fffffff bbbbb aaaaa ccc ddddd ooooooo`; the I-type shifts use it with shamt in place of rs2. -/
def encodeR (f7 : BitVec 7) (rs2 rs1 : RegIx) (f3 : BitVec 3) (rd : RegIx) (opc : BitVec 7) : Word :=
  f7 ++ rs2 ++ rs1 ++ f3 ++ rd ++ opc

/-- I-type: `iiiiiiiiiiii aaaaa ccc ddddd ooooooo`, imm[11:0] = w[31:20]. -/
def encodeI (imm : Word) (rs1 : RegIx) (f3 : BitVec 3) (rd : RegIx) (opc : BitVec 7) : Word :=
  imm.extractLsb' 0 12 ++ rs1 ++ f3 ++ rd ++ opc

/-- S-type: imm[11:5] = w[31:25], imm[4:0] = w[11:7]. -/
def encodeS (imm : Word) (rs2 rs1 : RegIx) (f3 : BitVec 3) (opc : BitVec 7) : Word :=
  imm.extractLsb' 5 7 ++ rs2 ++ rs1 ++ f3 ++ imm.extractLsb' 0 5 ++ opc

/-- B-type: imm[12] = w[31], imm[10:5] = w[30:25], imm[4:1] = w[11:8], imm[11] = w[7]. -/
def encodeB (imm : Word) (rs2 rs1 : RegIx) (f3 : BitVec 3) (opc : BitVec 7) : Word :=
  imm.extractLsb' 12 1 ++ imm.extractLsb' 5 6 ++ rs2 ++ rs1 ++ f3 ++ imm.extractLsb' 1 4 ++ imm.extractLsb' 11 1 ++ opc

/-- U-type: imm[31:12] = w[31:12]. -/
def encodeU (imm : Word) (rd : RegIx) (opc : BitVec 7) : Word :=
  imm.extractLsb' 12 20 ++ rd ++ opc

/-- J-type: imm[20] = w[31], imm[10:1] = w[30:21], imm[11] = w[20], imm[19:12] = w[19:12]. -/
def encodeJ (imm : Word) (rd : RegIx) (opc : BitVec 7) : Word :=
  imm.extractLsb' 20 1 ++ imm.extractLsb' 1 10 ++ imm.extractLsb' 11 1 ++ imm.extractLsb' 12 8 ++ rd ++ opc

/-- The word of a well-formed instruction. -/
def encode : Instr → Word
  | .add rd rs1 rs2  => encodeR 0x00#7 rs2 rs1 0#3 rd 0x33#7
  | .sub rd rs1 rs2  => encodeR 0x20#7 rs2 rs1 0#3 rd 0x33#7
  | .sll rd rs1 rs2  => encodeR 0x00#7 rs2 rs1 1#3 rd 0x33#7
  | .slt rd rs1 rs2  => encodeR 0x00#7 rs2 rs1 2#3 rd 0x33#7
  | .sltu rd rs1 rs2 => encodeR 0x00#7 rs2 rs1 3#3 rd 0x33#7
  | .xor rd rs1 rs2  => encodeR 0x00#7 rs2 rs1 4#3 rd 0x33#7
  | .srl rd rs1 rs2  => encodeR 0x00#7 rs2 rs1 5#3 rd 0x33#7
  | .sra rd rs1 rs2  => encodeR 0x20#7 rs2 rs1 5#3 rd 0x33#7
  | .or rd rs1 rs2   => encodeR 0x00#7 rs2 rs1 6#3 rd 0x33#7
  | .and rd rs1 rs2  => encodeR 0x00#7 rs2 rs1 7#3 rd 0x33#7
  | .addi rd rs1 imm  => encodeI imm rs1 0#3 rd 0x13#7
  | .slti rd rs1 imm  => encodeI imm rs1 2#3 rd 0x13#7
  | .sltiu rd rs1 imm => encodeI imm rs1 3#3 rd 0x13#7
  | .xori rd rs1 imm  => encodeI imm rs1 4#3 rd 0x13#7
  | .ori rd rs1 imm   => encodeI imm rs1 6#3 rd 0x13#7
  | .andi rd rs1 imm  => encodeI imm rs1 7#3 rd 0x13#7
  | .slli rd rs1 shamt => encodeR 0x00#7 shamt rs1 1#3 rd 0x13#7
  | .srli rd rs1 shamt => encodeR 0x00#7 shamt rs1 5#3 rd 0x13#7
  | .srai rd rs1 shamt => encodeR 0x20#7 shamt rs1 5#3 rd 0x13#7
  | .lb rd rs1 imm  => encodeI imm rs1 0#3 rd 0x03#7
  | .lh rd rs1 imm  => encodeI imm rs1 1#3 rd 0x03#7
  | .lw rd rs1 imm  => encodeI imm rs1 2#3 rd 0x03#7
  | .lbu rd rs1 imm => encodeI imm rs1 4#3 rd 0x03#7
  | .lhu rd rs1 imm => encodeI imm rs1 5#3 rd 0x03#7
  | .sb rs1 rs2 imm => encodeS imm rs2 rs1 0#3 0x23#7
  | .sh rs1 rs2 imm => encodeS imm rs2 rs1 1#3 0x23#7
  | .sw rs1 rs2 imm => encodeS imm rs2 rs1 2#3 0x23#7
  | .beq rs1 rs2 imm  => encodeB imm rs2 rs1 0#3 0x63#7
  | .bne rs1 rs2 imm  => encodeB imm rs2 rs1 1#3 0x63#7
  | .blt rs1 rs2 imm  => encodeB imm rs2 rs1 4#3 0x63#7
  | .bge rs1 rs2 imm  => encodeB imm rs2 rs1 5#3 0x63#7
  | .bltu rs1 rs2 imm => encodeB imm rs2 rs1 6#3 0x63#7
  | .bgeu rs1 rs2 imm => encodeB imm rs2 rs1 7#3 0x63#7
  | .jal rd imm      => encodeJ imm rd 0x6F#7
  | .jalr rd rs1 imm => encodeI imm rs1 0#3 rd 0x67#7
  | .lui rd imm      => encodeU imm rd 0x37#7
  | .auipc rd imm    => encodeU imm rd 0x17#7

/-! ### Byte order (R61, R66) -/

/-- Byte `k` (0 to 3, counted from the lowest address) of a little-endian word. -/
def byteOf (w : Word) (k : Nat) : Byte := w.extractLsb' (8 * k) 8

/-- The little-endian word of four bytes, `b0` at the lowest address: `{b3, b2, b1, b0}`. -/
def wordOfBytes (b0 b1 b2 b3 : Byte) : Word := b3 ++ b2 ++ b1 ++ b0

/-- The decoder on bytes as memory holds them: an instruction is one 32-bit word (R10, R118), the rest is returned.
Fewer than four bytes hold no instruction word. -/
def decodeBytes (fp : FencePolicy) : List Byte → Option (Decoded × List Byte)
  | b0 :: b1 :: b2 :: b3 :: rest => some (decode fp (wordOfBytes b0 b1 b2 b3), rest)
  | _ => none

/-- The bits `w` of an opcode-table row of `nbits` bits as an instruction word, the bits above `nbits` zero. -/
def tableWord (nbits w : Nat) : Word := BitVec.ofNat 32 (w % 2 ^ nbits)

/-- The instruction the decoder reads from a word numbered as spec/opcode_table.json numbers it, laid out in memory
order (the default `FENCE_POLICY`). -/
def decodeTableWord (nbits w : Nat) : Option Instr :=
  let v := tableWord nbits w
  match decodeBytes Params.default.fence [byteOf v 0, byteOf v 1, byteOf v 2, byteOf v 3] with
  | some (.instr i, _) => some i
  | _ => none

/-! ### The opcode table -/

/-- A row of spec/opcode_table.json: a word `w` is of the row exactly when `w &&& mask = bits`. -/
structure OpcodeRow where
  mnemonic : String
  mask : Word
  bits : Word
  deriving DecidableEq, Repr

/-- Rows add to and of spec/opcode_table.json. -/
def opRows : List OpcodeRow := [
  ⟨"add", 0xFE00707F#32, 0x00000033#32⟩,
  ⟨"sub", 0xFE00707F#32, 0x40000033#32⟩,
  ⟨"sll", 0xFE00707F#32, 0x00001033#32⟩,
  ⟨"slt", 0xFE00707F#32, 0x00002033#32⟩,
  ⟨"sltu", 0xFE00707F#32, 0x00003033#32⟩,
  ⟨"xor", 0xFE00707F#32, 0x00004033#32⟩,
  ⟨"srl", 0xFE00707F#32, 0x00005033#32⟩,
  ⟨"sra", 0xFE00707F#32, 0x40005033#32⟩,
  ⟨"or", 0xFE00707F#32, 0x00006033#32⟩,
  ⟨"and", 0xFE00707F#32, 0x00007033#32⟩]

/-- Rows addi to srai of spec/opcode_table.json. -/
def opImmRows : List OpcodeRow := [
  ⟨"addi", 0x0000707F#32, 0x00000013#32⟩,
  ⟨"slti", 0x0000707F#32, 0x00002013#32⟩,
  ⟨"sltiu", 0x0000707F#32, 0x00003013#32⟩,
  ⟨"xori", 0x0000707F#32, 0x00004013#32⟩,
  ⟨"ori", 0x0000707F#32, 0x00006013#32⟩,
  ⟨"andi", 0x0000707F#32, 0x00007013#32⟩,
  ⟨"slli", 0xFE00707F#32, 0x00001013#32⟩,
  ⟨"srli", 0xFE00707F#32, 0x00005013#32⟩,
  ⟨"srai", 0xFE00707F#32, 0x40005013#32⟩]

/-- Rows lb to lhu of spec/opcode_table.json. -/
def loadRows : List OpcodeRow := [
  ⟨"lb", 0x0000707F#32, 0x00000003#32⟩,
  ⟨"lh", 0x0000707F#32, 0x00001003#32⟩,
  ⟨"lw", 0x0000707F#32, 0x00002003#32⟩,
  ⟨"lbu", 0x0000707F#32, 0x00004003#32⟩,
  ⟨"lhu", 0x0000707F#32, 0x00005003#32⟩]

/-- Rows sb to sw of spec/opcode_table.json. -/
def storeRows : List OpcodeRow := [
  ⟨"sb", 0x0000707F#32, 0x00000023#32⟩,
  ⟨"sh", 0x0000707F#32, 0x00001023#32⟩,
  ⟨"sw", 0x0000707F#32, 0x00002023#32⟩]

/-- Rows beq to bgeu of spec/opcode_table.json. -/
def branchRows : List OpcodeRow := [
  ⟨"beq", 0x0000707F#32, 0x00000063#32⟩,
  ⟨"bne", 0x0000707F#32, 0x00001063#32⟩,
  ⟨"blt", 0x0000707F#32, 0x00004063#32⟩,
  ⟨"bge", 0x0000707F#32, 0x00005063#32⟩,
  ⟨"bltu", 0x0000707F#32, 0x00006063#32⟩,
  ⟨"bgeu", 0x0000707F#32, 0x00007063#32⟩]

/-- Rows jal to jalr of spec/opcode_table.json. -/
def jumpRows : List OpcodeRow := [
  ⟨"jal", 0x0000007F#32, 0x0000006F#32⟩,
  ⟨"jalr", 0x0000707F#32, 0x00000067#32⟩]

/-- Rows lui to auipc of spec/opcode_table.json. -/
def upperRows : List OpcodeRow := [
  ⟨"lui", 0x0000007F#32, 0x00000037#32⟩,
  ⟨"auipc", 0x0000007F#32, 0x00000017#32⟩]

/-- spec/opcode_table.json: its 37 rows, in order. -/
def opcodeTable : List OpcodeRow :=
  opRows ++ opImmRows ++ loadRows ++ storeRows ++ branchRows ++ jumpRows ++ upperRows
/-- The word is one of the row's. -/
def OpcodeRow.admits (r : OpcodeRow) (w : Word) : Bool := decide (w &&& r.mask = r.bits)

end Sys2Proof
end

