-- ==== Sys2Proof/Machine/State.lean ====
section
/-! DEFINITION. The machine's state `S = (X, pc, M, run, report)` (spec/10_state.md rule R30), with the parameters of
spec/00_scope.md rule R11 beside it, as plain data; what a step can stop with; and the state at reset (R47). -/

namespace Sys2Proof.Machine

/-- The three error kinds (R300). -/
inductive ErrorKind where
  /-- "opcode byte not in the supported set" -/
  | unknownOpcode
  /-- "valid opcode but an unsupported function-code/alt-function combination" -/
  | unknownFunctionCode
  /-- "an access pattern violating the word-alignment assumption made by the memory model" -/
  | unalignedAccess
  deriving DecidableEq, Repr, Inhabited

/-- The failure record relayed to the caller, `(kind, pc, word)` (R45, R305). -/
structure Report where
  kind : ErrorKind
  pc   : Word
  word : Word
  deriving DecidableEq, Repr, Inhabited

/-- The Fetch-Execute Loop's two states (R44). -/
inductive RunState where
  | running
  | halted
  deriving DecidableEq, Repr, Inhabited

/-- Memory contents `M` (R60): the bytes that are not 0, by address. Canonical form: `Memory.wf` (Machine/Ops.lean). -/
abbrev Memory := List Host.Cell

/-- The architectural state of one machine (R30), and its parameters (log 1). -/
structure State where
  /-- the Register File: x0 to x31 (R31); x0 reads 0 and discards writes in the accessors of Machine/Ops.lean -/
  x : Vector Word 32
  /-- the program counter: any 32-bit value (R35) -/
  pc : Word
  /-- the memory contents (R60) -/
  mem : Memory
  /-- the loop's state (R44) -/
  run : RunState
  /-- the failure record of a halted machine, or none (R45) -/
  report : Option Report
  /-- the implementation parameters, which no step changes (R11, log 1) -/
  params : Params
  deriving DecidableEq, Repr, Inhabited

/-- What stops a step without a next state. -/
inductive Fault where
  /-- Raised by `step` alone, for a machine in state Halted: "A machine in state Halted has no step" (R150, R159; `stuck`,
  I16; log 15). `report` is the failure record the halted machine holds, none after a clean halt. SAFE: the spec gives a
  Halted machine no next state. -/
  | halted (report : Option Report)
  deriving DecidableEq, Repr, Inhabited

/-- What the model gives no meaning to. -/
inductive Refusal where
  /-- An instruction whose arm in Machine/Dispatch.lean has no meaning yet. No arm raises it: all 37 have theirs. SAFE. -/
  | notModelled (mnemonic : String)
  /-- Raised by the loader operation (Machine/Loader.lean) alone, for an image with two entries for one word, which R331
  refuses (D18, I11). No step raises it. SAFE. -/
  | duplicateImageWord
  deriving DecidableEq, Repr, Inhabited

/-- The machine right after reset (R47, R330, R331): registers 0, memory all 0 (nothing listed), Running, no report, pc
at `ENTRY_PC` (`Config.entryPc`, log 2), and no image loaded (log 3). -/
def State.reset : State where
  x      := Vector.replicate 32 0#32
  pc     := Config.entryPc
  mem    := []
  run    := .running
  report := none
  params := Params.default

end Sys2Proof.Machine
end

