-- ==== Sys2Proof/Machine/Ops.lean ====
section
/-! DEFINITION. The named operations over registers, pc and memory (spec/10_state.md R31 to R38, spec/20_memory.md R60 to
R72) and the one operation that ends a step with a failure (spec/60_exceptions.md R300 to R306). -/

namespace Sys2Proof.Machine

/-- The outcome of one instruction or one step. -/
abbrev Result := Host.Outcome State Fault Refusal

/-! ### Register File (R21, R31 to R35) -/

/-- `read(index)`: "returns 0 when index is 0, else the stored value" (R32). -/
def State.readReg (s : State) (r : RegIx) : Word :=
  if r = 0#5 then 0#32 else s.x[r.toNat]'r.isLt

/-- `write(index, value)`: "no-op when index is 0, else stores value" (R33). -/
def State.writeReg (s : State) (r : RegIx) (v : Word) : State :=
  if r = 0#5 then s else { s with x := s.x.set r.toNat v r.isLt }

/-- `writePc(value)`: "no masking" (R35). -/
def State.setPc (s : State) (v : Word) : State := { s with pc := v }

/-! ### Memory contents (R60, R62) -/

/-- What an address that is not listed reads as: "Reading never-written memory returns 0" (R62). -/
def Memory.unlisted : Byte := 0#8

/-- The canonical form: addresses strictly rising and inside the 2^32 byte space (R65), and no entry that reads as an
unlisted address does. -/
abbrev Memory.wf (m : Memory) : Prop :=
  List.Pairwise (fun c d : Host.Cell => c.1 < d.1) m ∧ ∀ c ∈ m, c.1 < 2 ^ 32 ∧ c.2 ≠ Memory.unlisted

/-- The byte listed at address `k`. -/
def Memory.lookup : Memory → Nat → Byte
  | [], _ => Memory.unlisted
  | c :: rest, k => if c.1 = k then c.2 else Memory.lookup rest k

/-- The memory without an entry for `k`. -/
def Memory.erase : Memory → Nat → Memory
  | [], _ => []
  | c :: rest, k => if c.1 = k then Memory.erase rest k else c :: Memory.erase rest k

/-- An entry put before the first one with a larger address. -/
def Memory.insert : Memory → Nat → Byte → Memory
  | [], k, v => [(k, v)]
  | c :: rest, k, v => if k < c.1 then (k, v) :: c :: rest else c :: Memory.insert rest k v

/-- `M[a]` (R60). -/
def Memory.readByte (m : Memory) (a : Word) : Byte := Memory.lookup m a.toNat

/-- `M[a] := v`, in canonical form. -/
def Memory.writeByte (m : Memory) (a : Word) (v : Byte) : Memory :=
  if v = Memory.unlisted then Memory.erase m a.toNat else Memory.insert (Memory.erase m a.toNat) a.toNat v

/-- The memory with the same contents in canonical form: every entry of the address space written into an empty memory,
the first entry of an address last, since it is the one that reads. Only a `SYSTEM_HOOK`'s answer is not in canonical form already (log 8). -/
def Memory.canonical : Memory → Memory
  | [] => []
  | c :: rest =>
    if c.1 < 2 ^ 32 then Memory.writeByte (Memory.canonical rest) (BitVec.ofNat 32 c.1) c.2 else Memory.canonical rest

/-! ### The word port (R61, R63) -/

/-- The address of the containing word, `a & ~3`. -/
def wordAddr (a : Word) : Word := a &&& ~~~3#32

/-- `WordRead(a) = {M[wa+3], M[wa+2], M[wa+1], M[wa]}` (R61). -/
def Memory.wordRead (m : Memory) (a : Word) : Word :=
  let wa := wordAddr a
  wordOfBytes (Memory.readByte m wa) (Memory.readByte m (wa + 1#32)) (Memory.readByte m (wa + 2#32))
    (Memory.readByte m (wa + 3#32))

/-- `WordWrite(a, w)`: the four bytes of `w` at `wa` to `wa+3`, little-endian (R63). -/
def Memory.wordWrite (m : Memory) (a w : Word) : Memory :=
  let wa := wordAddr a
  let m := Memory.writeByte m wa (byteOf w 0)
  let m := Memory.writeByte m (wa + 1#32) (byteOf w 1)
  let m := Memory.writeByte m (wa + 2#32) (byteOf w 2)
  Memory.writeByte m (wa + 3#32) (byteOf w 3)

/-! ### Lane operations (R67, R68, R69) -/

/-- The access widths (R72). -/
inductive Width where
  | byte
  | half
  | word
  deriving DecidableEq, Repr, Inhabited

/-- Bytes of an access: 1, 2 or 4. -/
def Width.bytes : Width → Nat
  | .byte => 1
  | .half => 2
  | .word => 4

/-- `2^(8*n) - 1` -/
def Width.mask : Width → Word
  | .byte => 0xFF#32
  | .half => 0xFFFF#32
  | .word => 0xFFFFFFFF#32

/-- `8*off` for `off = addr & 3`, the place of an address's byte in its word. -/
def laneShift (addr : Word) : Nat := 8 * (addr &&& 3#32).toNat

/-- `MemRead(addr, n)` (R67): the lane of the containing word, in the low 8*n bits, the bits above 0. -/
def Memory.memRead (m : Memory) (addr : Word) (n : Width) : Word :=
  match n with
  | .word => Memory.wordRead m addr
  | .byte => (Memory.wordRead m addr >>> laneShift addr) &&& Width.mask .byte
  | .half => (Memory.wordRead m addr >>> laneShift addr) &&& Width.mask .half

/-- The read-modify-write of a sub-word store (R68), bits shifted past bit 31 dropped (D20, log 12). -/
def Memory.laneWrite (m : Memory) (addr : Word) (n : Width) (v : Word) : Memory :=
  let w := Memory.wordRead m addr
  let mask := Width.mask n <<< laneShift addr
  Memory.wordWrite m addr ((w &&& ~~~mask) ||| (((v &&& Width.mask n) <<< laneShift addr) &&& mask))

/-- `MemWrite(addr, n, v)` (R68), `v` the stored register, of which the low 8*n bits are stored. -/
def Memory.memWrite (m : Memory) (addr : Word) (n : Width) (v : Word) : Memory :=
  match n with
  | .word => Memory.wordWrite m addr v
  | .byte => Memory.laneWrite m addr .byte v
  | .half => Memory.laneWrite m addr .half v

/-- The access is not naturally aligned: `addr mod n != 0` (R69). -/
def misaligned (n : Width) (addr : Word) : Bool := decide (addr.toNat % n.bytes ≠ 0)

/-- The access raises `UnalignedAccess`: misaligned, under `DATA_ALIGN_POLICY = trap` (R69, log 5). -/
def State.alignFault (s : State) (n : Width) (addr : Word) : Bool :=
  decide (s.params.dataAlign = .trap) && misaligned n addr

/-! ### Fetch and failure (R151, R300 to R306) -/

/-- The fetched word: `WordRead(pc)` (R151). -/
def State.fetchWord (s : State) : Word := Memory.wordRead s.mem s.pc

/-- This spec's numeric tags (R300, D13; log 17). -/
def ErrorKind.tag : ErrorKind → Nat
  | .unknownOpcode => 1
  | .unknownFunctionCode => 2
  | .unalignedAccess => 3

/-- The error an `Unknown` value fails with (R301). -/
def unknownError : UnknownKind → ErrorKind
  | .opcode => .unknownOpcode
  | .functionCode => .unknownFunctionCode

/-- TAKING A FAILURE, the core's only exception (R304 to R306, R150): the loop enters Halted and keeps the record
`(kind, pc, word)`; registers, memory and pc are unchanged. The word is the one at pc, which the failing step fetched and
has not changed (log 14). There is no return from it (R307). -/
def State.raise (s : State) (kind : ErrorKind) : State :=
  { s with run := .halted, report := some ⟨kind, s.pc, s.fetchWord⟩ }

/-- The clean halt: "S.run <- Halted; return" with no record (R150, R153). -/
def State.cleanHalt (s : State) : State := { s with run := .halted }

/-! ### The state accessor (R26) -/

/-- "read-only snapshot of all 32 registers and the program counter" (R26). -/
structure Snapshot where
  x  : Vector Word 32
  pc : Word
  deriving DecidableEq, Repr

/-- The snapshot the presentation layer gets: every register as `read` answers it, and pc. -/
def State.snapshot (s : State) : Snapshot where
  x  := Vector.ofFn fun i : Fin 32 => s.readReg (BitVec.ofFin i)
  pc := s.pc

end Sys2Proof.Machine
end

