-- ==== Sys2Proof/Machine/Operands.lean ====
section
/-! DEFINITION. The operand forms and the shared shapes of an instruction's execution (spec/40_engine.md R155, R156,
R161): sources are read from the state before the instruction, then the register or memory write is done, then pc is
written. -/

namespace Sys2Proof.Machine

/-- `pc + 4`, modulo 2^32 (R38, R156): the next pc of an instruction that does not branch, and the link value. -/
def State.pcPlus4 (s : State) : Word := s.pc + 4#32

/-- `pc + offset`, modulo 2^32 (R38, R156). -/
def State.pcTarget (s : State) (offset : Word) : Word := s.pc + offset

/-- The effective address `x[rs1] + imm`, modulo 2^32 (R220, R240): the one addressing mode. -/
def State.effAddr (s : State) (rs1 : RegIx) (imm : Word) : Word := s.readReg rs1 + imm

/-- `(x[rs1] + imm) & ~1` (R282). -/
def State.jalrTarget (s : State) (rs1 : RegIx) (imm : Word) : Word := (s.readReg rs1 + imm) &&& ~~~1#32

/-- "shift amount = low 5 bits of rs2" (R180). -/
def shiftAmount (b : Word) : Nat := (b.extractLsb' 0 5).toNat

/-- A register result: `x[rd] <- v` (discarded for rd = 0), then `pc <- next` (R155, R161). -/
def State.finish (s : State) (rd : RegIx) (v next : Word) : Result := .next ((s.writeReg rd v).setPc next)

/-- R-type: `x[rd] <- x[rs1] op x[rs2]; pc <- pc + 4` (R180). -/
def State.regReg (s : State) (op : Word → Word → Word) (rd rs1 rs2 : RegIx) : Result :=
  s.finish rd (op (s.readReg rs1) (s.readReg rs2)) s.pcPlus4

/-- I-type arithmetic: `x[rd] <- x[rs1] op imm; pc <- pc + 4` (R200). -/
def State.regImm (s : State) (op : Word → Word → Word) (rd rs1 : RegIx) (imm : Word) : Result :=
  s.finish rd (op (s.readReg rs1) imm) s.pcPlus4

/-- I-type shifts: `x[rd] <- x[rs1] op shamt; pc <- pc + 4` (R200). -/
def State.regShift (s : State) (op : Word → Nat → Word) (rd rs1 : RegIx) (shamt : BitVec 5) : Result :=
  s.finish rd (op (s.readReg rs1) shamt.toNat) s.pcPlus4

/-- Loads (R220): check the alignment, read the lane, extend, write rd. -/
def State.load (s : State) (n : Width) (ext : Word → Word) (rd rs1 : RegIx) (imm : Word) : Result :=
  let ea := s.effAddr rs1 imm
  if s.alignFault n ea then .next (s.raise .unalignedAccess)
  else s.finish rd (ext (Memory.memRead s.mem ea n)) s.pcPlus4

/-- Stores (R240): check the alignment, write the lane of `x[rs2]`. -/
def State.store (s : State) (n : Width) (rs1 rs2 : RegIx) (imm : Word) : Result :=
  let ea := s.effAddr rs1 imm
  if s.alignFault n ea then .next (s.raise .unalignedAccess)
  else .next { s with mem := Memory.memWrite s.mem ea n (s.readReg rs2), pc := s.pcPlus4 }

/-- Branches (R260): `pc + immB` when the condition holds, else `pc + 4`. -/
def State.branch (s : State) (cond : Word → Word → Bool) (rs1 rs2 : RegIx) (imm : Word) : Result :=
  .next (s.setPc (if cond (s.readReg rs1) (s.readReg rs2) then s.pcTarget imm else s.pcPlus4))

/-- `sext_8` of the low byte (R221). -/
def extendByteSigned (v : Word) : Word := sext (v.extractLsb' 0 8)
/-- `sext_16` of the low halfword (R222). -/
def extendHalfSigned (v : Word) : Word := sext (v.extractLsb' 0 16)
/-- `zext_8` of the low byte (R224). -/
def extendByteUnsigned (v : Word) : Word := zext (v.extractLsb' 0 8)
/-- `zext_16` of the low halfword (R225). -/
def extendHalfUnsigned (v : Word) : Word := zext (v.extractLsb' 0 16)
/-- A word needs no extension (R223). -/
def extendWord (v : Word) : Word := v

end Sys2Proof.Machine
end

