-- ==== Sys2Proof/Machine/Flags.lean ====
section
/-! DEFINITION. The core has NO flags: "comparisons deliver their result into a general register (slt, sltu, slti, sltiu)
or into the branch decision, and no instruction writes any flag" (spec/10_state.md R39). This file holds what takes the
flags' place: the comparator's conditions and their 0/1 results; and the ALU's other operations
(spec/41_register_register.md R180 to R191). -/

namespace Sys2Proof.Machine

/-! ### The comparator -/

/-- `a <s b` (R14) -/
def ltSigned (a b : Word) : Bool := a.slt b
/-- `a <u b` (R14) -/
def ltUnsigned (a b : Word) : Bool := a.ult b
/-- beq's condition (R261) -/
def condEq (a b : Word) : Bool := decide (a = b)
/-- bne's condition (R262) -/
def condNe (a b : Word) : Bool := decide (a ≠ b)
/-- bge's condition, `not (a <s b)` (R264) -/
def geSigned (a b : Word) : Bool := !ltSigned a b
/-- bgeu's condition, `not (a <u b)` (R266) -/
def geUnsigned (a b : Word) : Bool := !ltUnsigned a b

/-- `c ? 1 : 0`, "result 0/1" (R184, R185). -/
def boolWord (c : Bool) : Word := if c then 1#32 else 0#32

/-! ### The ALU -/

/-- R181, R201 -/
def aluAdd (a b : Word) : Word := a + b
/-- R182 -/
def aluSub (a b : Word) : Word := a - b
/-- R184, R202 -/
def aluSlt (a b : Word) : Word := boolWord (ltSigned a b)
/-- R185, R203 -/
def aluSltu (a b : Word) : Word := boolWord (ltUnsigned a b)
/-- R186, R204 -/
def aluXor (a b : Word) : Word := a ^^^ b
/-- R189, R205 -/
def aluOr (a b : Word) : Word := a ||| b
/-- R190, R206 -/
def aluAnd (a b : Word) : Word := a &&& b
/-- `a << n` (R14) -/
def shiftLeft (a : Word) (n : Nat) : Word := a <<< n
/-- `a >>u n` (R14) -/
def shiftRightLogical (a : Word) (n : Nat) : Word := a >>> n
/-- `a >>s n` (R14) -/
def shiftRightArith (a : Word) (n : Nat) : Word := a.sshiftRight n
/-- R183 -/
def aluSll (a b : Word) : Word := shiftLeft a (shiftAmount b)
/-- R187 -/
def aluSrl (a b : Word) : Word := shiftRightLogical a (shiftAmount b)
/-- R188 -/
def aluSra (a b : Word) : Word := shiftRightArith a (shiftAmount b)

end Sys2Proof.Machine
end

