-- ==== Sys2Proof/Machine/Branches.lean ====
section
/-! DEFINITION. The six conditional branches (spec/45_branches.md R260 to R266). None raises an error. -/

namespace Sys2Proof.Machine

/-- taken when `x[rs1] == x[rs2]` (R261) -/
def execBeq (rs1 rs2 : RegIx) (imm : Word) (s : State) : Result :=
  s.branch condEq rs1 rs2 imm

/-- taken when `x[rs1] != x[rs2]` (R262) -/
def execBne (rs1 rs2 : RegIx) (imm : Word) (s : State) : Result :=
  s.branch condNe rs1 rs2 imm

/-- taken when `x[rs1] <s x[rs2]` (R263) -/
def execBlt (rs1 rs2 : RegIx) (imm : Word) (s : State) : Result :=
  s.branch ltSigned rs1 rs2 imm

/-- taken when `not (x[rs1] <s x[rs2])` (R264) -/
def execBge (rs1 rs2 : RegIx) (imm : Word) (s : State) : Result :=
  s.branch geSigned rs1 rs2 imm

/-- taken when `x[rs1] <u x[rs2]` (R265) -/
def execBltu (rs1 rs2 : RegIx) (imm : Word) (s : State) : Result :=
  s.branch ltUnsigned rs1 rs2 imm

/-- taken when `not (x[rs1] <u x[rs2])` (R266) -/
def execBgeu (rs1 rs2 : RegIx) (imm : Word) (s : State) : Result :=
  s.branch geUnsigned rs1 rs2 imm

end Sys2Proof.Machine
end

