-- ==== Sys2Proof/Machine/Jumps.lean ====
section
/-! DEFINITION. The two jumps (spec/46_jumps.md R280 to R282): link value pc + 4, target computed from the state before the
instruction. Neither raises an error. -/

namespace Sys2Proof.Machine

/-- `x[rd] <- pc + 4; pc <- pc + immJ` (R281) -/
def execJal (rd : RegIx) (imm : Word) (s : State) : Result :=
  s.finish rd s.pcPlus4 (s.pcTarget imm)

/-- `x[rd] <- pc + 4; pc <- (x[rs1] + immI) & ~1`, the target from the old x[rs1] (R282) -/
def execJalr (rd rs1 : RegIx) (imm : Word) (s : State) : Result :=
  s.finish rd s.pcPlus4 (s.jalrTarget rs1 imm)

end Sys2Proof.Machine
end

