-- ==== Sys2Proof/Machine/Loads.lean ====
section
/-! DEFINITION. The five loads (spec/43_loads.md R220 to R225). -/

namespace Sys2Proof.Machine

/-- `x[rd] <- sext_8(MemRead(ea, 1))` (R221) -/
def execLb (rd rs1 : RegIx) (imm : Word) (s : State) : Result :=
  s.load .byte extendByteSigned rd rs1 imm

/-- `x[rd] <- sext_16(MemRead(ea, 2))` (R222) -/
def execLh (rd rs1 : RegIx) (imm : Word) (s : State) : Result :=
  s.load .half extendHalfSigned rd rs1 imm

/-- `x[rd] <- MemRead(ea, 4)` (R223) -/
def execLw (rd rs1 : RegIx) (imm : Word) (s : State) : Result :=
  s.load .word extendWord rd rs1 imm

/-- `x[rd] <- zext_8(MemRead(ea, 1))` (R224) -/
def execLbu (rd rs1 : RegIx) (imm : Word) (s : State) : Result :=
  s.load .byte extendByteUnsigned rd rs1 imm

/-- `x[rd] <- zext_16(MemRead(ea, 2))` (R225) -/
def execLhu (rd rs1 : RegIx) (imm : Word) (s : State) : Result :=
  s.load .half extendHalfUnsigned rd rs1 imm

end Sys2Proof.Machine
end

