-- ==== Sys2Proof/Machine/RegImm.lean ====
section
/-! DEFINITION. The nine register-immediate instructions (spec/42_register_immediate.md R200 to R209). None raises an error. -/

namespace Sys2Proof.Machine

/-- `x[rd] <- x[rs1] + immI` (R201) -/
def execAddi (rd rs1 : RegIx) (imm : Word) (s : State) : Result :=
  s.regImm aluAdd rd rs1 imm

/-- `x[rd] <- (x[rs1] <s immI) ? 1 : 0` (R202) -/
def execSlti (rd rs1 : RegIx) (imm : Word) (s : State) : Result :=
  s.regImm aluSlt rd rs1 imm

/-- `x[rd] <- (x[rs1] <u immI) ? 1 : 0`, the immediate sign-extended first (R203) -/
def execSltiu (rd rs1 : RegIx) (imm : Word) (s : State) : Result :=
  s.regImm aluSltu rd rs1 imm

/-- `x[rd] <- x[rs1] ^ immI` (R204) -/
def execXori (rd rs1 : RegIx) (imm : Word) (s : State) : Result :=
  s.regImm aluXor rd rs1 imm

/-- `x[rd] <- x[rs1] | immI` (R205) -/
def execOri (rd rs1 : RegIx) (imm : Word) (s : State) : Result :=
  s.regImm aluOr rd rs1 imm

/-- `x[rd] <- x[rs1] & immI` (R206) -/
def execAndi (rd rs1 : RegIx) (imm : Word) (s : State) : Result :=
  s.regImm aluAnd rd rs1 imm

/-- `x[rd] <- x[rs1] << shamt` (R207) -/
def execSlli (rd rs1 : RegIx) (shamt : BitVec 5) (s : State) : Result :=
  s.regShift shiftLeft rd rs1 shamt

/-- `x[rd] <- x[rs1] >>u shamt` (R208) -/
def execSrli (rd rs1 : RegIx) (shamt : BitVec 5) (s : State) : Result :=
  s.regShift shiftRightLogical rd rs1 shamt

/-- `x[rd] <- x[rs1] >>s shamt` (R209) -/
def execSrai (rd rs1 : RegIx) (shamt : BitVec 5) (s : State) : Result :=
  s.regShift shiftRightArith rd rs1 shamt

end Sys2Proof.Machine
end

