-- ==== Sys2Proof/Machine/RegReg.lean ====
section
/-! DEFINITION. The ten register-register instructions (spec/41_register_register.md R180 to R190). None raises an error. -/

namespace Sys2Proof.Machine

/-- `x[rd] <- x[rs1] + x[rs2]` (R181) -/
def execAdd (rd rs1 rs2 : RegIx) (s : State) : Result :=
  s.regReg aluAdd rd rs1 rs2

/-- `x[rd] <- x[rs1] - x[rs2]` (R182) -/
def execSub (rd rs1 rs2 : RegIx) (s : State) : Result :=
  s.regReg aluSub rd rs1 rs2

/-- `x[rd] <- x[rs1] << x[rs2][4:0]` (R183) -/
def execSll (rd rs1 rs2 : RegIx) (s : State) : Result :=
  s.regReg aluSll rd rs1 rs2

/-- `x[rd] <- (x[rs1] <s x[rs2]) ? 1 : 0` (R184) -/
def execSlt (rd rs1 rs2 : RegIx) (s : State) : Result :=
  s.regReg aluSlt rd rs1 rs2

/-- `x[rd] <- (x[rs1] <u x[rs2]) ? 1 : 0` (R185) -/
def execSltu (rd rs1 rs2 : RegIx) (s : State) : Result :=
  s.regReg aluSltu rd rs1 rs2

/-- `x[rd] <- x[rs1] ^ x[rs2]` (R186) -/
def execXor (rd rs1 rs2 : RegIx) (s : State) : Result :=
  s.regReg aluXor rd rs1 rs2

/-- `x[rd] <- x[rs1] >>u x[rs2][4:0]` (R187) -/
def execSrl (rd rs1 rs2 : RegIx) (s : State) : Result :=
  s.regReg aluSrl rd rs1 rs2

/-- `x[rd] <- x[rs1] >>s x[rs2][4:0]` (R188) -/
def execSra (rd rs1 rs2 : RegIx) (s : State) : Result :=
  s.regReg aluSra rd rs1 rs2

/-- `x[rd] <- x[rs1] | x[rs2]` (R189) -/
def execOr (rd rs1 rs2 : RegIx) (s : State) : Result :=
  s.regReg aluOr rd rs1 rs2

/-- `x[rd] <- x[rs1] & x[rs2]` (R190) -/
def execAnd (rd rs1 rs2 : RegIx) (s : State) : Result :=
  s.regReg aluAnd rd rs1 rs2

end Sys2Proof.Machine
end

