-- ==== Sys2Proof/Machine/Stores.lean ====
section
/-! DEFINITION. The three stores (spec/44_stores.md R240 to R243). -/

namespace Sys2Proof.Machine

/-- `MemWrite(ea, 1, x[rs2][7:0])` (R241) -/
def execSb (rs1 rs2 : RegIx) (imm : Word) (s : State) : Result :=
  s.store .byte rs1 rs2 imm

/-- `MemWrite(ea, 2, x[rs2][15:0])` (R242) -/
def execSh (rs1 rs2 : RegIx) (imm : Word) (s : State) : Result :=
  s.store .half rs1 rs2 imm

/-- `WordWrite(ea, x[rs2])` (R243) -/
def execSw (rs1 rs2 : RegIx) (imm : Word) (s : State) : Result :=
  s.store .word rs1 rs2 imm

end Sys2Proof.Machine
end

