-- ==== Sys2Proof/Machine/UpperImm.lean ====
section
/-! DEFINITION. The two upper-immediate instructions (spec/47_upper_immediate.md R290 to R292). Neither raises an error. -/

namespace Sys2Proof.Machine

/-- `x[rd] <- immU` (R291) -/
def execLui (rd : RegIx) (imm : Word) (s : State) : Result :=
  s.finish rd imm s.pcPlus4

/-- `x[rd] <- pc + immU` (R292) -/
def execAuipc (rd : RegIx) (imm : Word) (s : State) : Result :=
  s.finish rd (s.pcTarget imm) s.pcPlus4

end Sys2Proof.Machine
end

