-- ==== Sys2Proof/Machine/Environment.lean ====
section
/-! DEFINITION. The embedding environment's two parameters of spec/00_scope.md rule R11 that are functions: `HALT_PRED`
(R153, D17; log 9) and `SYSTEM_HOOK` (R157, D11; log 8). Each is an opaque constant with no body, so nothing can be
proved of what it answers, and a statement about it holds for every environment. -/

namespace Sys2Proof

/-- The environment's halt condition where it is none of those `HaltPred` writes as data: any predicate on the state. -/
opaque Config.haltPredicate : Machine.State → Bool

/-- The environment's step for a SYSTEM word: "hands the whole state and the word to it and takes its result as the next
state; the core places no constraint on that result" (R157). -/
opaque Config.systemHook : Machine.State → Word → Machine.State

namespace Machine

/-- `HALT_PRED(S)` (R153). -/
def State.haltHolds (s : State) : Bool :=
  match s.params.haltPred with
  | .never => false
  | .pcIs a => decide (s.pc = a)
  | .wordIs w => decide (s.fetchWord = w)
  | .regIs r v => decide (s.readReg r = v)
  | .environment => Config.haltPredicate s

/-- The state a `SYSTEM_HOOK`'s answer stands for, as this model writes states (log 8): register, byte and pc contents are
the answer's; memory in canonical form, slot 0 of the register file 0, no report while Running (R45), the parameters those
of the machine. -/
def State.ofHook (s answer : State) : State where
  x      := answer.x.set 0 0#32
  pc     := answer.pc
  mem    := Memory.canonical answer.mem
  run    := answer.run
  report := if answer.run = .running then none else answer.report
  params := s.params

/-- `w` is a SYSTEM word (opcode 0x73) and a `SYSTEM_HOOK` is present (R150, R157). -/
def State.hooks (s : State) (w : Word) : Bool :=
  decide (Field.opcode w = 0x73#7) && decide (s.params.systemHook = .present)

end Machine

end Sys2Proof
end

