-- ==== Sys2Proof/Machine/Fetch.lean ====
section
/-! DEFINITION. What a step does around execution (spec/40_engine.md R150 to R153, R157): the checks before decode, the
decoding of the fetched word, and placing a word where the next fetch reads. -/

namespace Sys2Proof.Machine

/-- A fetch at this pc raises `UnalignedAccess`: `pc[1:0] != 0` under `FETCH_ALIGN_POLICY = trap` (R152, log 6). -/
def State.fetchFault (s : State) : Bool :=
  decide (s.params.fetchAlign = .trap) && misaligned .word s.pc

/-- What a Running machine's step does before it decodes, if that ends the step (R150, R303): the clean halt of
`HALT_PRED`, the failing fetch, or the environment's step for a SYSTEM word. -/
def State.beforeDecode (s : State) : Option State :=
  if s.haltHolds then some s.cleanHalt
  else if s.fetchFault then some (s.raise .unalignedAccess)
  else if s.hooks s.fetchWord then some (s.ofHook (Config.systemHook s s.fetchWord))
  else none

/-- `decode(w)` of the fetched word (R111, R150). -/
def State.decodeFetched (s : State) : Decoded := decode s.params.fence s.fetchWord

/-- The word written where the next fetch reads it, in a machine that will fetch it. -/
def State.placeWord (s : State) (w : Word) : State :=
  { s with
    mem := Memory.wordWrite s.mem s.pc w
    run := .running
    report := none
    params := { s.params with fetchAlign := .mask, haltPred := .never } }

end Sys2Proof.Machine
end

