-- ==== Sys2Proof/Machine/Step.lean ====
section
/-! DEFINITION. One step of the Fetch-Execute Loop (spec/40_engine.md R150): `HALT_PRED`, fetch alignment, fetch, the
SYSTEM hook, decode, execute, in that order (R303). -/

namespace Sys2Proof.Machine

/-- Execution of the decoder's output (R154): an instruction by its meaning, `Unknown(kind, w)` fails with its kind (R301). -/
def execDecoded (d : Decoded) (s : State) : Host.Outcome State Fault Refusal :=
  match d with
  | .instr i => exec i s
  | .unknown kind _ => .next (s.raise (unknownError kind))

/-- One step. A Halted machine has none (R159, log 15). -/
def step (s : State) : Host.Outcome State Fault Refusal :=
  match s.run with
  | .halted => .fault (.halted s.report)
  | .running =>
    match s.beforeDecode with
    | some t => .next t
    | none => execDecoded (s.decodeFetched) s

/-- `s` with the word `w` (a row's `nbits` bits, zero above) where `step` fetches its next instruction, and ready to fetch
it: the word is written at the word of pc; Running with no report; `HALT_PRED` never, fetch alignment not enforced. Of a
machine that is ready already, as at reset, only memory changes. -/
def State.withFetchWord (s : State) (nbits w : Nat) : State :=
  s.placeWord (tableWord nbits w)

end Sys2Proof.Machine
end

