-- ==== Sys2Proof/Machine/Assembler.lean ====
section
/-! DEFINITION. Assembler names, syntax and pseudo-instructions (spec/10_state.md R34, spec/30_encoding.md R119, R120). They
carry no hardware meaning: a pseudo-instruction is other spellings of the 37 instructions. -/

namespace Sys2Proof

/-! ### Register names (R34) -/

/-- The ABI names of x0 to x31, in order (R34). -/
def abiNames : List String :=
  ["zero", "ra", "sp", "gp", "tp", "t0", "t1", "t2"] ++ ["s0", "s1", "a0", "a1", "a2", "a3", "a4", "a5"] ++
  ["a6", "a7", "s2", "s3", "s4", "s5", "s6", "s7"] ++ ["s8", "s9", "s10", "s11", "t3", "t4", "t5", "t6"]

/-- The ABI name of a register. -/
def abiName (r : RegIx) : String := abiNames.getD r.toNat ""

/-- The register an assembler name stands for: an ABI name, or `fp`, the second name of x8 (R34). -/
def regOfAbiName (name : String) : Option RegIx :=
  if name = "fp" then some 8#5
  else if abiNames.idxOf name < 32 then some (BitVec.ofNat 5 (abiNames.idxOf name)) else none

/-! ### Operand syntax (R119) -/

/-- The operand forms of R119's table. -/
inductive AsmForm where
  /-- `op rd, rs1, rs2` -/
  | regReg (rd rs1 rs2 : RegIx)
  /-- `op rd, rs1, imm`; shifts: `op rd, rs1, shamt` -/
  | regImm (rd rs1 : RegIx) (imm : Int)
  /-- `op rd, imm(rs1)`: loads and jalr -/
  | regMem (rd : RegIx) (imm : Int) (rs1 : RegIx)
  /-- `op rs2, imm(rs1)`: stores -/
  | memReg (rs2 : RegIx) (imm : Int) (rs1 : RegIx)
  /-- `op rs1, rs2, offset`: branches -/
  | compare (rs1 rs2 : RegIx) (offset : Int)
  /-- `op rd, imm20`: lui and auipc, "the value placed in w[31:12]" -/
  | upper (rd : RegIx) (imm20 : Nat)
  /-- `jal rd, offset` -/
  | jump (rd : RegIx) (offset : Int)
  deriving DecidableEq, Repr

/-- An instruction's operands as the assembler writes them (R119). -/
def Instr.asmForm : Instr → AsmForm
  | .add rd rs1 rs2 | .sub rd rs1 rs2 | .sll rd rs1 rs2 | .slt rd rs1 rs2 | .sltu rd rs1 rs2 | .xor rd rs1 rs2
  | .srl rd rs1 rs2 | .sra rd rs1 rs2 | .or rd rs1 rs2 | .and rd rs1 rs2 => .regReg rd rs1 rs2
  | .addi rd rs1 imm | .slti rd rs1 imm | .sltiu rd rs1 imm | .xori rd rs1 imm | .ori rd rs1 imm
  | .andi rd rs1 imm => .regImm rd rs1 imm.toInt
  | .slli rd rs1 shamt | .srli rd rs1 shamt | .srai rd rs1 shamt => .regImm rd rs1 shamt.toNat
  | .lb rd rs1 imm | .lh rd rs1 imm | .lw rd rs1 imm | .lbu rd rs1 imm | .lhu rd rs1 imm
  | .jalr rd rs1 imm => .regMem rd imm.toInt rs1
  | .sb rs1 rs2 imm | .sh rs1 rs2 imm | .sw rs1 rs2 imm => .memReg rs2 imm.toInt rs1
  | .beq rs1 rs2 imm | .bne rs1 rs2 imm | .blt rs1 rs2 imm | .bge rs1 rs2 imm | .bltu rs1 rs2 imm
  | .bgeu rs1 rs2 imm => .compare rs1 rs2 imm.toInt
  | .lui rd imm | .auipc rd imm => .upper rd (imm.toNat / 4096)
  | .jal rd imm => .jump rd imm.toInt

/-- Register `x<n>` as the assembler writes it. -/
def regText (r : RegIx) : String := "x" ++ toString r.toNat

/-- The text of the operands. -/
def AsmForm.text : AsmForm → String
  | .regReg rd rs1 rs2 => regText rd ++ ", " ++ regText rs1 ++ ", " ++ regText rs2
  | .regImm rd rs1 imm => regText rd ++ ", " ++ regText rs1 ++ ", " ++ toString imm
  | .regMem r imm rs1 | .memReg r imm rs1 => regText r ++ ", " ++ toString imm ++ "(" ++ regText rs1 ++ ")"
  | .compare rs1 rs2 offset => regText rs1 ++ ", " ++ regText rs2 ++ ", " ++ toString offset
  | .upper rd imm20 => regText rd ++ ", 0x" ++ String.ofList (Nat.toDigits 16 imm20)
  | .jump rd offset => regText rd ++ ", " ++ toString offset

/-- The assembler's text of an instruction (R119). -/
def Instr.asm (i : Instr) : String := i.mnemonic ++ " " ++ i.asmForm.text

/-! ### Pseudo-instructions (R120) -/

/-- `lo12 = sext_12(imm[11:0])` (R120). -/
def lo12 (v : Word) : Word := sext (v.extractLsb' 0 12)

/-- `hi20 = (imm - lo12)[31:12]`, as the immediate lui and auipc take it, in bits 31..12 (R120, R105). -/
def hi20 (v : Word) : Word := (v - lo12 v).extractLsb' 12 20 ++ 0#12

/-- The pseudo-instructions of R120. -/
inductive Pseudo where
  | nop
  | li (rd : RegIx) (imm : Word)
  | mv (rd rs : RegIx)
  | not (rd rs : RegIx)
  | neg (rd rs : RegIx)
  | seqz (rd rs : RegIx)
  | snez (rd rs : RegIx)
  | sltz (rd rs : RegIx)
  | sgtz (rd rs : RegIx)
  | beqz (rs : RegIx) (off : Word)
  | bnez (rs : RegIx) (off : Word)
  | blez (rs : RegIx) (off : Word)
  | bgez (rs : RegIx) (off : Word)
  | bltz (rs : RegIx) (off : Word)
  | bgtz (rs : RegIx) (off : Word)
  | bgt (rs rt : RegIx) (off : Word)
  | ble (rs rt : RegIx) (off : Word)
  | bgtu (rs rt : RegIx) (off : Word)
  | bleu (rs rt : RegIx) (off : Word)
  | j (off : Word)
  | jal (off : Word)
  | jr (rs : RegIx)
  | jalr (rs : RegIx)
  | ret
  | call (off : Word)
  | tail (off : Word)
  /-- `la`, `lla`: `off` is the symbol's address less the pc of the auipc ("pc-relative") -/
  | la (rd : RegIx) (off : Word)
  deriving DecidableEq, Repr

/-- The expansions of R120's table. -/
def Pseudo.expand : Pseudo → List Instr
  | .nop => [.addi 0#5 0#5 0#32]
  | .li rd imm =>
    if -2048 ≤ imm.toInt ∧ imm.toInt ≤ 2047 then [.addi rd 0#5 imm] else [.lui rd (hi20 imm), .addi rd rd (lo12 imm)]
  | .mv rd rs => [.addi rd rs 0#32]
  | .not rd rs => [.xori rd rs 0xFFFFFFFF#32]
  | .neg rd rs => [.sub rd 0#5 rs]
  | .seqz rd rs => [.sltiu rd rs 1#32]
  | .snez rd rs => [.sltu rd 0#5 rs]
  | .sltz rd rs => [.slt rd rs 0#5]
  | .sgtz rd rs => [.slt rd 0#5 rs]
  | .beqz rs off => [.beq rs 0#5 off]
  | .bnez rs off => [.bne rs 0#5 off]
  | .blez rs off => [.bge 0#5 rs off]
  | .bgez rs off => [.bge rs 0#5 off]
  | .bltz rs off => [.blt rs 0#5 off]
  | .bgtz rs off => [.blt 0#5 rs off]
  | .bgt rs rt off => [.blt rt rs off]
  | .ble rs rt off => [.bge rt rs off]
  | .bgtu rs rt off => [.bltu rt rs off]
  | .bleu rs rt off => [.bgeu rt rs off]
  | .j off => [.jal 0#5 off]
  | .jal off => [.jal 1#5 off]
  | .jr rs => [.jalr 0#5 rs 0#32]
  | .jalr rs => [.jalr 1#5 rs 0#32]
  | .ret => [.jalr 0#5 1#5 0#32]
  | .call off => [.auipc 1#5 (hi20 off), .jalr 1#5 1#5 (lo12 off)]
  | .tail off => [.auipc 6#5 (hi20 off), .jalr 0#5 6#5 (lo12 off)]
  | .la rd off => [.auipc rd (hi20 off), .addi rd rd (lo12 off)]

end Sys2Proof
end

