-- ==== Sys2Proof/Machine/Loader.lean ====
section
/-! DEFINITION. Creation of a machine instance with a loader's program (spec/70_reset_and_hazards.md R330 to R333;
spec/00_scope.md R25; D18, log 18). The loader is outside the core; this is what it may deliver and what the core then
holds before its first step. -/

namespace Sys2Proof.Machine

/-- `INITIAL_IMAGE`: the loader's "{address → initial word} set" (R25). -/
abbrev Image := List (Word × Word)

/-- "The entries' addresses must be distinct after masking to words" (R331). -/
abbrev Image.distinctWords (image : Image) : Prop :=
  List.Pairwise (fun e f : Word × Word => wordAddr e.1 ≠ wordAddr f.1) image

/-- "For each entry (a, w) of INITIAL_IMAGE the word is written by WordWrite(a, w)" (R331). -/
def Image.write (m : Memory) : Image → Memory
  | [] => m
  | e :: rest => Image.write (Memory.wordWrite m e.1 e.2) rest

/-- The reset sequence of R331: registers and memory zero, the image written, pc := `ENTRY_PC` unmasked, Running, no
report; an image with two entries for one word is refused. -/
def State.create (params : Params) (entryPc : Word) (image : Image) : Result :=
  if Image.distinctWords image then
    .next { State.reset with mem := Image.write [] image, pc := entryPc, params := params }
  else .refused .duplicateImageWord

end Sys2Proof.Machine
end

