-- ==== Sys2Proof/Safety.lean ====
section
/-! DEFINITION. What the caller sees of a run, and what counts as a safe one (spec/60_exceptions.md R317,
spec/70_reset_and_hazards.md R336); the invariant of the machine's states. -/

namespace Sys2Proof.Machine

/-- What the caller gets back: "Running, clean halt, or failure record" (R336). -/
inductive Status where
  | running
  | cleanHalt
  | failed (r : Report)
  deriving DecidableEq, Repr

def State.status (s : State) : Status :=
  match s.run, s.report with
  | .running, _ => .running
  | .halted, none => .cleanHalt
  | .halted, some r => .failed r

/-- A run is safe as long as no failure has been recorded: a failure halt is "a fault of the program, not ... a normal
end"; a clean halt is one (R317). -/
def State.safe (s : State) : Bool := s.report.isNone

/-- The invariant of the machine's states: memory in canonical form, the hard-wired register's slot 0 (R32), and no report
while Running (R45). -/
structure State.Inv (s : State) : Prop where
  memory  : Memory.wf s.mem
  zero    : s.x[0] = 0#32
  running : s.run = .running → s.report = none

end Sys2Proof.Machine
end

