-- ==== Sys2Proof/Certificates/Slice0/Obligations.lean ====
section
/-! DEFINITION. The statements for the provers. Each says what the machine does by its readings (registers through `readReg`,
memory one byte at a time, pc, run, report, parameters), not by the model's own record updates; values are written as
arithmetic on numbers or as byte and bit selections. -/

namespace Sys2Proof.Spec

open Sys2Proof.Machine

/-! ### What a statement says of two states -/

/-- Every byte of memory reads as before. -/
def SameBytes (s t : State) : Prop := ∀ a : Word, Memory.readByte t.mem a = Memory.readByte s.mem a

/-- Every register reads as before. -/
def SameRegs (s t : State) : Prop := ∀ r : RegIx, t.readReg r = s.readReg r

/-- The loop's state, the failure record and the parameters are as before. -/
def SameLoop (s t : State) : Prop := t.run = s.run ∧ t.report = s.report ∧ t.params = s.params

/-- An instruction that writes `v` to `rd` (nothing, if `rd` is x0) and `next` to pc, and changes nothing else. -/
def WritesReg (s t : State) (rd : RegIx) (v next : Word) : Prop :=
  (∀ r : RegIx, t.readReg r = if r = rd ∧ r ≠ 0#5 then v else s.readReg r) ∧
  t.pc = next ∧ SameBytes s t ∧ SameLoop s t

/-- An instruction that writes `next` to pc and changes nothing else. -/
def WritesPc (s t : State) (next : Word) : Prop :=
  t.pc = next ∧ SameRegs s t ∧ SameBytes s t ∧ SameLoop s t

/-- An instruction that changes memory to what `byteAt` says, moves to pc + 4, and changes nothing else. -/
def WritesBytes (s t : State) (byteAt : Word → Byte) : Prop :=
  (∀ a : Word, Memory.readByte t.mem a = byteAt a) ∧ t.pc = s.pc + 4#32 ∧ SameRegs s t ∧ SameLoop s t

/-- The step failed with `kind`: Halted, the record `(kind, pc, word at pc)`, registers, memory and pc unchanged (R304,
R305). -/
def Failed (s t : State) (kind : ErrorKind) : Prop :=
  t.run = .halted ∧ t.report = some ⟨kind, s.pc, Memory.wordRead s.mem s.pc⟩ ∧ t.pc = s.pc ∧
  SameRegs s t ∧ SameBytes s t ∧ t.params = s.params

/-- Nothing ends a step of this machine before it decodes: Running, `HALT_PRED` does not hold, the fetch is allowed at this
pc, and the fetched word is not one a `SYSTEM_HOOK` takes. -/
def Undisturbed (s : State) : Prop :=
  s.run = .running ∧ s.haltHolds = false ∧ (s.params.fetchAlign = .trap → s.pc.toNat % 4 = 0) ∧
  (s.params.systemHook = .present → s.fetchWord.extractLsb' 0 7 ≠ 0x73#7)

/-- The misaligned accesses that raise `UnalignedAccess` (R69, R302): lh, lhu, sh at an odd address, lw, sw at an address
that is no multiple of 4, under `DATA_ALIGN_POLICY = trap`; nothing else. -/
def dataFault (s : State) : Instr → Bool
  | .lh _ rs1 imm | .lhu _ rs1 imm | .sh rs1 _ imm =>
    decide (s.params.dataAlign = .trap) && decide ((s.readReg rs1 + imm).toNat % 2 = 1)
  | .lw _ rs1 imm | .sw rs1 _ imm =>
    decide (s.params.dataAlign = .trap) && decide ((s.readReg rs1 + imm).toNat % 4 ≠ 0)
  | _ => false

/-- The table of R156: where an instruction that does not fail goes. -/
def nextPc (s : State) : Instr → Word
  | .beq a b imm => if s.readReg a = s.readReg b then s.pc + imm else s.pc + 4#32
  | .bne a b imm => if s.readReg a = s.readReg b then s.pc + 4#32 else s.pc + imm
  | .blt a b imm => if (s.readReg a).toInt < (s.readReg b).toInt then s.pc + imm else s.pc + 4#32
  | .bge a b imm => if (s.readReg a).toInt < (s.readReg b).toInt then s.pc + 4#32 else s.pc + imm
  | .bltu a b imm => if (s.readReg a).toNat < (s.readReg b).toNat then s.pc + imm else s.pc + 4#32
  | .bgeu a b imm => if (s.readReg a).toNat < (s.readReg b).toNat then s.pc + 4#32 else s.pc + imm
  | .jal _ imm => s.pc + imm
  | .jalr _ rs1 imm => (s.readReg rs1 + imm) &&& 0xFFFFFFFE#32
  | _ => s.pc + 4#32

/-- The destination register of an instruction's class (R34, R161): stores and branches have none. -/
def dest : Instr → Option RegIx
  | .sb .. | .sh .. | .sw .. | .beq .. | .bne .. | .blt .. | .bge .. | .bltu .. | .bgeu .. => none
  | .add rd .. | .sub rd .. | .sll rd .. | .slt rd .. | .sltu rd .. | .xor rd .. | .srl rd .. | .sra rd .. | .or rd ..
  | .and rd .. | .addi rd .. | .slti rd .. | .sltiu rd .. | .xori rd .. | .ori rd .. | .andi rd .. | .slli rd ..
  | .srli rd .. | .srai rd .. | .lb rd .. | .lh rd .. | .lw rd .. | .lbu rd .. | .lhu rd .. | .jal rd .. | .jalr rd ..
  | .lui rd .. | .auipc rd .. => some rd

/-- The bytes an instruction may store to: the access's bytes inside the word at `ea & ~3` (R63, R68). -/
def storesTo (s : State) (a : Word) : Instr → Bool
  | .sb rs1 _ imm => decide (a = s.effAddr rs1 imm)
  | .sh rs1 _ imm =>
    decide (a = s.effAddr rs1 imm) ||
      (decide (a = s.effAddr rs1 imm + 1#32) && decide ((s.effAddr rs1 imm).toNat % 4 ≠ 3))
  | .sw rs1 _ imm => decide (a &&& 0xFFFFFFFC#32 = s.effAddr rs1 imm &&& 0xFFFFFFFC#32)
  | _ => false

/-- The halfword read at `ea` (R66, R70): bytes `ea` and `ea + 1`; at lane 3 the high byte is 0. -/
def halfAt (s : State) (ea : Word) : BitVec 16 :=
  (if ea.toNat % 4 = 3 then 0#8 else Memory.readByte s.mem (ea + 1#32)) ++ Memory.readByte s.mem ea

/-- The word of the four bytes from `ea & ~3`, little-endian (R61). -/
def wordAt (s : State) (ea : Word) : Word :=
  let wa := ea &&& 0xFFFFFFFC#32
  Memory.readByte s.mem (wa + 3#32) ++ Memory.readByte s.mem (wa + 2#32) ++ Memory.readByte s.mem (wa + 1#32) ++
    Memory.readByte s.mem wa

/-- The instructions executed one after the other, as long as each answers a next state. -/
def execAll : List Instr → State → Result
  | [], s => .next s
  | i :: rest, s =>
    match exec i s with
    | .next t => execAll rest t
    | .fault f => .fault f
    | .refused r => .refused r

/-- 1 when `p`, else 0 ("result 0/1"). -/
def zeroOne (p : Prop) [Decidable p] : Word := if p then 1#32 else 0#32

end Sys2Proof.Spec

open Sys2Proof Sys2Proof.Machine Sys2Proof.Spec

/-! ## Instructions: register-register (41) -/

/-- R181, R182: add and sub, encoding and effect. -/
def Obligations.AddSubDecodeAndWriteModularResult : Prop :=
  ∀ (fp : FencePolicy) (s : State) (rd rs1 rs2 : RegIx),
    decode fp (0x00#7 ++ rs2 ++ rs1 ++ 0#3 ++ rd ++ 0x33#7) = .instr (.add rd rs1 rs2) ∧
    decode fp (0x20#7 ++ rs2 ++ rs1 ++ 0#3 ++ rd ++ 0x33#7) = .instr (.sub rd rs1 rs2) ∧
    (∃ t, exec (.add rd rs1 rs2) s = .next t ∧
      WritesReg s t rd (BitVec.ofNat 32 ((s.readReg rs1).toNat + (s.readReg rs2).toNat)) (s.pc + 4#32)) ∧
    (∃ t, exec (.sub rd rs1 rs2) s = .next t ∧
      WritesReg s t rd (BitVec.ofInt 32 ((s.readReg rs1).toInt - (s.readReg rs2).toInt)) (s.pc + 4#32))

/-- R184, R185: slt and sltu, encoding and effect. -/
def Obligations.SltSltuDecodeAndWriteComparison : Prop :=
  ∀ (fp : FencePolicy) (s : State) (rd rs1 rs2 : RegIx),
    decode fp (0x00#7 ++ rs2 ++ rs1 ++ 2#3 ++ rd ++ 0x33#7) = .instr (.slt rd rs1 rs2) ∧
    decode fp (0x00#7 ++ rs2 ++ rs1 ++ 3#3 ++ rd ++ 0x33#7) = .instr (.sltu rd rs1 rs2) ∧
    (∃ t, exec (.slt rd rs1 rs2) s = .next t ∧
      WritesReg s t rd (zeroOne ((s.readReg rs1).toInt < (s.readReg rs2).toInt)) (s.pc + 4#32)) ∧
    (∃ t, exec (.sltu rd rs1 rs2) s = .next t ∧
      WritesReg s t rd (zeroOne ((s.readReg rs1).toNat < (s.readReg rs2).toNat)) (s.pc + 4#32))

/-- R186, R189, R190: xor, or, and, encoding and effect. -/
def Obligations.XorOrAndDecodeAndWriteBitwiseResult : Prop :=
  ∀ (fp : FencePolicy) (s : State) (rd rs1 rs2 : RegIx),
    decode fp (0x00#7 ++ rs2 ++ rs1 ++ 4#3 ++ rd ++ 0x33#7) = .instr (.xor rd rs1 rs2) ∧
    decode fp (0x00#7 ++ rs2 ++ rs1 ++ 6#3 ++ rd ++ 0x33#7) = .instr (.or rd rs1 rs2) ∧
    decode fp (0x00#7 ++ rs2 ++ rs1 ++ 7#3 ++ rd ++ 0x33#7) = .instr (.and rd rs1 rs2) ∧
    (∃ t, exec (.xor rd rs1 rs2) s = .next t ∧
      WritesReg s t rd (s.readReg rs1 ^^^ s.readReg rs2) (s.pc + 4#32)) ∧
    (∃ t, exec (.or rd rs1 rs2) s = .next t ∧
      WritesReg s t rd (s.readReg rs1 ||| s.readReg rs2) (s.pc + 4#32)) ∧
    (∃ t, exec (.and rd rs1 rs2) s = .next t ∧
      WritesReg s t rd (s.readReg rs1 &&& s.readReg rs2) (s.pc + 4#32))

/-- R183, R187, R188: sll, srl, sra, encoding and effect; the shift amount is the low 5 bits of x[rs2]. -/
def Obligations.RegisterShiftsDecodeAndShiftByLowFiveBits : Prop :=
  ∀ (fp : FencePolicy) (s : State) (rd rs1 rs2 : RegIx),
    decode fp (0x00#7 ++ rs2 ++ rs1 ++ 1#3 ++ rd ++ 0x33#7) = .instr (.sll rd rs1 rs2) ∧
    decode fp (0x00#7 ++ rs2 ++ rs1 ++ 5#3 ++ rd ++ 0x33#7) = .instr (.srl rd rs1 rs2) ∧
    decode fp (0x20#7 ++ rs2 ++ rs1 ++ 5#3 ++ rd ++ 0x33#7) = .instr (.sra rd rs1 rs2) ∧
    (∃ t, exec (.sll rd rs1 rs2) s = .next t ∧
      WritesReg s t rd (BitVec.ofNat 32 ((s.readReg rs1).toNat * 2 ^ ((s.readReg rs2).toNat % 32))) (s.pc + 4#32)) ∧
    (∃ t, exec (.srl rd rs1 rs2) s = .next t ∧
      WritesReg s t rd (BitVec.ofNat 32 ((s.readReg rs1).toNat / 2 ^ ((s.readReg rs2).toNat % 32))) (s.pc + 4#32)) ∧
    (∃ t, exec (.sra rd rs1 rs2) s = .next t ∧
      WritesReg s t rd (BitVec.ofInt 32 ((s.readReg rs1).toInt / 2 ^ ((s.readReg rs2).toNat % 32))) (s.pc + 4#32))

/-! ## Instructions: register-immediate (42) -/

/-- R201, R204, R205, R206: addi, xori, ori, andi, encoding and effect; the 12 immediate bits are sign-extended. -/
def Obligations.AddiXoriOriAndiDecodeAndWriteResult : Prop :=
  ∀ (fp : FencePolicy) (s : State) (rd rs1 : RegIx) (i : BitVec 12) (imm : Word),
    decode fp (i ++ rs1 ++ 0#3 ++ rd ++ 0x13#7) = .instr (.addi rd rs1 (BitVec.ofInt 32 i.toInt)) ∧
    decode fp (i ++ rs1 ++ 4#3 ++ rd ++ 0x13#7) = .instr (.xori rd rs1 (BitVec.ofInt 32 i.toInt)) ∧
    decode fp (i ++ rs1 ++ 6#3 ++ rd ++ 0x13#7) = .instr (.ori rd rs1 (BitVec.ofInt 32 i.toInt)) ∧
    decode fp (i ++ rs1 ++ 7#3 ++ rd ++ 0x13#7) = .instr (.andi rd rs1 (BitVec.ofInt 32 i.toInt)) ∧
    (∃ t, exec (.addi rd rs1 imm) s = .next t ∧
      WritesReg s t rd (BitVec.ofInt 32 ((s.readReg rs1).toInt + imm.toInt)) (s.pc + 4#32)) ∧
    (∃ t, exec (.xori rd rs1 imm) s = .next t ∧ WritesReg s t rd (s.readReg rs1 ^^^ imm) (s.pc + 4#32)) ∧
    (∃ t, exec (.ori rd rs1 imm) s = .next t ∧ WritesReg s t rd (s.readReg rs1 ||| imm) (s.pc + 4#32)) ∧
    (∃ t, exec (.andi rd rs1 imm) s = .next t ∧ WritesReg s t rd (s.readReg rs1 &&& imm) (s.pc + 4#32))

/-- R202, R203: slti and sltiu, encoding and effect; both compare with the sign-extended immediate. -/
def Obligations.SltiSltiuDecodeAndWriteComparison : Prop :=
  ∀ (fp : FencePolicy) (s : State) (rd rs1 : RegIx) (i : BitVec 12) (imm : Word),
    decode fp (i ++ rs1 ++ 2#3 ++ rd ++ 0x13#7) = .instr (.slti rd rs1 (BitVec.ofInt 32 i.toInt)) ∧
    decode fp (i ++ rs1 ++ 3#3 ++ rd ++ 0x13#7) = .instr (.sltiu rd rs1 (BitVec.ofInt 32 i.toInt)) ∧
    (∃ t, exec (.slti rd rs1 imm) s = .next t ∧
      WritesReg s t rd (zeroOne ((s.readReg rs1).toInt < imm.toInt)) (s.pc + 4#32)) ∧
    (∃ t, exec (.sltiu rd rs1 imm) s = .next t ∧
      WritesReg s t rd (zeroOne ((s.readReg rs1).toNat < imm.toNat)) (s.pc + 4#32))

/-- R207, R208, R209: slli, srli, srai, encoding and effect. That a word of funct3 001 with another funct7 is
`UnknownFunctionCode` is the spec's own decision (D8, log 10). -/
def Obligations.ImmediateShiftsDecodeAndShiftByShamt : Prop :=
  ∀ (fp : FencePolicy) (s : State) (rd rs1 : RegIx) (shamt : BitVec 5),
    decode fp (0x00#7 ++ shamt ++ rs1 ++ 1#3 ++ rd ++ 0x13#7) = .instr (.slli rd rs1 shamt) ∧
    decode fp (0x00#7 ++ shamt ++ rs1 ++ 5#3 ++ rd ++ 0x13#7) = .instr (.srli rd rs1 shamt) ∧
    decode fp (0x20#7 ++ shamt ++ rs1 ++ 5#3 ++ rd ++ 0x13#7) = .instr (.srai rd rs1 shamt) ∧
    (∀ f7 : BitVec 7, f7 ≠ 0x00#7 → decode fp (f7 ++ shamt ++ rs1 ++ 1#3 ++ rd ++ 0x13#7) =
      .unknown .functionCode (f7 ++ shamt ++ rs1 ++ 1#3 ++ rd ++ 0x13#7)) ∧
    (∃ t, exec (.slli rd rs1 shamt) s = .next t ∧
      WritesReg s t rd (BitVec.ofNat 32 ((s.readReg rs1).toNat * 2 ^ shamt.toNat)) (s.pc + 4#32)) ∧
    (∃ t, exec (.srli rd rs1 shamt) s = .next t ∧
      WritesReg s t rd (BitVec.ofNat 32 ((s.readReg rs1).toNat / 2 ^ shamt.toNat)) (s.pc + 4#32)) ∧
    (∃ t, exec (.srai rd rs1 shamt) s = .next t ∧
      WritesReg s t rd (BitVec.ofInt 32 ((s.readReg rs1).toInt / 2 ^ shamt.toNat)) (s.pc + 4#32))

/-! ## Instructions: loads (43) -/

/-- R221, R224: lb and lbu, encoding and effect; they complete in every state. -/
def Obligations.ByteLoadsDecodeAndExtendTheByte : Prop :=
  ∀ (fp : FencePolicy) (s : State) (rd rs1 : RegIx) (i : BitVec 12) (imm : Word),
    decode fp (i ++ rs1 ++ 0#3 ++ rd ++ 0x03#7) = .instr (.lb rd rs1 (BitVec.ofInt 32 i.toInt)) ∧
    decode fp (i ++ rs1 ++ 4#3 ++ rd ++ 0x03#7) = .instr (.lbu rd rs1 (BitVec.ofInt 32 i.toInt)) ∧
    (∃ t, exec (.lb rd rs1 imm) s = .next t ∧
      WritesReg s t rd (BitVec.ofInt 32 (Memory.readByte s.mem (s.readReg rs1 + imm)).toInt) (s.pc + 4#32)) ∧
    (∃ t, exec (.lbu rd rs1 imm) s = .next t ∧
      WritesReg s t rd (BitVec.ofNat 32 (Memory.readByte s.mem (s.readReg rs1 + imm)).toNat) (s.pc + 4#32))

/-- R222, R225: lh and lhu, encoding and effect, aligned or under `DATA_ALIGN_POLICY = mask`, and `UnalignedAccess` under
`trap`. What lane 3 reads under `mask` is an inference the spec marks as derived (R70) and its decision D20 (log 12). -/
def Obligations.HalfLoadsDecodeAndExtendTheHalfwordOrFail : Prop :=
  ∀ (fp : FencePolicy) (s : State) (rd rs1 : RegIx) (i : BitVec 12) (imm : Word),
    decode fp (i ++ rs1 ++ 1#3 ++ rd ++ 0x03#7) = .instr (.lh rd rs1 (BitVec.ofInt 32 i.toInt)) ∧
    decode fp (i ++ rs1 ++ 5#3 ++ rd ++ 0x03#7) = .instr (.lhu rd rs1 (BitVec.ofInt 32 i.toInt)) ∧
    (s.params.dataAlign = .mask ∨ (s.readReg rs1 + imm).toNat % 2 = 0 →
      (∃ t, exec (.lh rd rs1 imm) s = .next t ∧
        WritesReg s t rd (BitVec.ofInt 32 (halfAt s (s.readReg rs1 + imm)).toInt) (s.pc + 4#32)) ∧
      (∃ t, exec (.lhu rd rs1 imm) s = .next t ∧
        WritesReg s t rd (BitVec.ofNat 32 (halfAt s (s.readReg rs1 + imm)).toNat) (s.pc + 4#32))) ∧
    (s.params.dataAlign = .trap → (s.readReg rs1 + imm).toNat % 2 = 1 →
      (∃ t, exec (.lh rd rs1 imm) s = .next t ∧ Failed s t .unalignedAccess) ∧
      (∃ t, exec (.lhu rd rs1 imm) s = .next t ∧ Failed s t .unalignedAccess))

/-- R223: lw, encoding and effect, aligned or under `mask`, and `UnalignedAccess` under `trap`. -/
def Obligations.WordLoadDecodesAndReadsTheAlignedWordOrFails : Prop :=
  ∀ (fp : FencePolicy) (s : State) (rd rs1 : RegIx) (i : BitVec 12) (imm : Word),
    decode fp (i ++ rs1 ++ 2#3 ++ rd ++ 0x03#7) = .instr (.lw rd rs1 (BitVec.ofInt 32 i.toInt)) ∧
    (s.params.dataAlign = .mask ∨ (s.readReg rs1 + imm).toNat % 4 = 0 →
      ∃ t, exec (.lw rd rs1 imm) s = .next t ∧ WritesReg s t rd (wordAt s (s.readReg rs1 + imm)) (s.pc + 4#32)) ∧
    (s.params.dataAlign = .trap → (s.readReg rs1 + imm).toNat % 4 ≠ 0 →
      ∃ t, exec (.lw rd rs1 imm) s = .next t ∧ Failed s t .unalignedAccess)

/-! ## Instructions: stores (44) -/

/-- R241: sb, encoding and effect; it completes in every state. -/
def Obligations.ByteStoreDecodesAndReplacesOneByte : Prop :=
  ∀ (fp : FencePolicy) (s : State) (rs1 rs2 : RegIx) (hi : BitVec 7) (lo : BitVec 5) (imm : Word),
    decode fp (hi ++ rs2 ++ rs1 ++ 0#3 ++ lo ++ 0x23#7) =
      .instr (.sb rs1 rs2 (BitVec.ofInt 32 (hi ++ lo : BitVec 12).toInt)) ∧
    ∃ t, exec (.sb rs1 rs2 imm) s = .next t ∧ WritesBytes s t (fun a =>
      if a = s.effAddr rs1 imm then (s.readReg rs2).extractLsb' 0 8 else Memory.readByte s.mem a)

/-- R242: sh, encoding and effect, aligned or under `mask`, and `UnalignedAccess` under `trap`. That only one byte is
written at lane 3 under `mask` is an inference the spec marks as derived (R70) and its decision D20 (log 12). -/
def Obligations.HalfStoreDecodesAndReplacesItsLaneOrFails : Prop :=
  ∀ (fp : FencePolicy) (s : State) (rs1 rs2 : RegIx) (hi : BitVec 7) (lo : BitVec 5) (imm : Word),
    decode fp (hi ++ rs2 ++ rs1 ++ 1#3 ++ lo ++ 0x23#7) =
      .instr (.sh rs1 rs2 (BitVec.ofInt 32 (hi ++ lo : BitVec 12).toInt)) ∧
    (s.params.dataAlign = .mask ∨ (s.effAddr rs1 imm).toNat % 2 = 0 →
      ∃ t, exec (.sh rs1 rs2 imm) s = .next t ∧ WritesBytes s t (fun a =>
        if a = s.effAddr rs1 imm then (s.readReg rs2).extractLsb' 0 8
        else if a = s.effAddr rs1 imm + 1#32 ∧ (s.effAddr rs1 imm).toNat % 4 ≠ 3 then (s.readReg rs2).extractLsb' 8 8
        else Memory.readByte s.mem a)) ∧
    (s.params.dataAlign = .trap → (s.effAddr rs1 imm).toNat % 2 = 1 →
      ∃ t, exec (.sh rs1 rs2 imm) s = .next t ∧ Failed s t .unalignedAccess)

/-- R243: sw, encoding and effect, aligned or under `mask`, and `UnalignedAccess` under `trap`. -/
def Obligations.WordStoreDecodesAndReplacesTheAlignedWordOrFails : Prop :=
  ∀ (fp : FencePolicy) (s : State) (rs1 rs2 : RegIx) (hi : BitVec 7) (lo : BitVec 5) (imm : Word),
    decode fp (hi ++ rs2 ++ rs1 ++ 2#3 ++ lo ++ 0x23#7) =
      .instr (.sw rs1 rs2 (BitVec.ofInt 32 (hi ++ lo : BitVec 12).toInt)) ∧
    (s.params.dataAlign = .mask ∨ (s.effAddr rs1 imm).toNat % 4 = 0 →
      ∃ t, exec (.sw rs1 rs2 imm) s = .next t ∧ WritesBytes s t (fun a =>
        if a &&& 0xFFFFFFFC#32 = s.effAddr rs1 imm &&& 0xFFFFFFFC#32
        then (s.readReg rs2).extractLsb' (8 * (a.toNat % 4)) 8 else Memory.readByte s.mem a)) ∧
    (s.params.dataAlign = .trap → (s.effAddr rs1 imm).toNat % 4 ≠ 0 →
      ∃ t, exec (.sw rs1 rs2 imm) s = .next t ∧ Failed s t .unalignedAccess)

/-- The source's property in section 44 (stores): "storing then loading the same sub-word slice returns the stored value
unchanged". -/
def Obligations.SubWordStoreThenLoadReturnsTheSlice : Prop :=
  ∀ (s : State) (rs1 rs2 rd : RegIx) (imm : Word), rd ≠ 0#5 →
    (∃ t u, exec (.sb rs1 rs2 imm) s = .next t ∧ exec (.lbu rd rs1 imm) t = .next u ∧
      u.readReg rd = BitVec.ofNat 32 ((s.readReg rs2).toNat % 2 ^ 8) ∧ SameBytes t u) ∧
    ((s.readReg rs1 + imm).toNat % 2 = 0 →
      ∃ t u, exec (.sh rs1 rs2 imm) s = .next t ∧ exec (.lhu rd rs1 imm) t = .next u ∧
        u.readReg rd = BitVec.ofNat 32 ((s.readReg rs2).toNat % 2 ^ 16) ∧ SameBytes t u)

/-! ## Instructions: branches (45), jumps (46), upper immediate (47) -/

/-- R261, R262: beq and bne, encoding and effect. -/
def Obligations.EqualityBranchesDecodeAndBranchExactlyWhenTheConditionHolds : Prop :=
  ∀ (fp : FencePolicy) (s : State) (rs1 rs2 : RegIx) (b12 b11 : BitVec 1) (b10 : BitVec 6) (b4 : BitVec 4) (imm : Word),
    decode fp (b12 ++ b10 ++ rs2 ++ rs1 ++ 0#3 ++ b4 ++ b11 ++ 0x63#7) =
      .instr (.beq rs1 rs2 (BitVec.ofInt 32 (b12 ++ b11 ++ b10 ++ b4 ++ 0#1 : BitVec 13).toInt)) ∧
    decode fp (b12 ++ b10 ++ rs2 ++ rs1 ++ 1#3 ++ b4 ++ b11 ++ 0x63#7) =
      .instr (.bne rs1 rs2 (BitVec.ofInt 32 (b12 ++ b11 ++ b10 ++ b4 ++ 0#1 : BitVec 13).toInt)) ∧
    (∃ t, exec (.beq rs1 rs2 imm) s = .next t ∧
      WritesPc s t (if s.readReg rs1 = s.readReg rs2 then s.pc + imm else s.pc + 4#32)) ∧
    (∃ t, exec (.bne rs1 rs2 imm) s = .next t ∧
      WritesPc s t (if s.readReg rs1 = s.readReg rs2 then s.pc + 4#32 else s.pc + imm))

/-- R263 to R266: blt, bge (signed), bltu, bgeu (unsigned), encoding and effect. -/
def Obligations.OrderBranchesDecodeAndBranchExactlyWhenTheConditionHolds : Prop :=
  ∀ (fp : FencePolicy) (s : State) (rs1 rs2 : RegIx) (b12 b11 : BitVec 1) (b10 : BitVec 6) (b4 : BitVec 4) (imm : Word),
    decode fp (b12 ++ b10 ++ rs2 ++ rs1 ++ 4#3 ++ b4 ++ b11 ++ 0x63#7) =
      .instr (.blt rs1 rs2 (BitVec.ofInt 32 (b12 ++ b11 ++ b10 ++ b4 ++ 0#1 : BitVec 13).toInt)) ∧
    decode fp (b12 ++ b10 ++ rs2 ++ rs1 ++ 5#3 ++ b4 ++ b11 ++ 0x63#7) =
      .instr (.bge rs1 rs2 (BitVec.ofInt 32 (b12 ++ b11 ++ b10 ++ b4 ++ 0#1 : BitVec 13).toInt)) ∧
    decode fp (b12 ++ b10 ++ rs2 ++ rs1 ++ 6#3 ++ b4 ++ b11 ++ 0x63#7) =
      .instr (.bltu rs1 rs2 (BitVec.ofInt 32 (b12 ++ b11 ++ b10 ++ b4 ++ 0#1 : BitVec 13).toInt)) ∧
    decode fp (b12 ++ b10 ++ rs2 ++ rs1 ++ 7#3 ++ b4 ++ b11 ++ 0x63#7) =
      .instr (.bgeu rs1 rs2 (BitVec.ofInt 32 (b12 ++ b11 ++ b10 ++ b4 ++ 0#1 : BitVec 13).toInt)) ∧
    (∃ t, exec (.blt rs1 rs2 imm) s = .next t ∧
      WritesPc s t (if (s.readReg rs1).toInt < (s.readReg rs2).toInt then s.pc + imm else s.pc + 4#32)) ∧
    (∃ t, exec (.bge rs1 rs2 imm) s = .next t ∧
      WritesPc s t (if (s.readReg rs1).toInt < (s.readReg rs2).toInt then s.pc + 4#32 else s.pc + imm)) ∧
    (∃ t, exec (.bltu rs1 rs2 imm) s = .next t ∧
      WritesPc s t (if (s.readReg rs1).toNat < (s.readReg rs2).toNat then s.pc + imm else s.pc + 4#32)) ∧
    (∃ t, exec (.bgeu rs1 rs2 imm) s = .next t ∧
      WritesPc s t (if (s.readReg rs1).toNat < (s.readReg rs2).toNat then s.pc + 4#32 else s.pc + imm))

/-- R281: jal, encoding and effect: link pc + 4, target pc + immJ. -/
def Obligations.JalDecodesLinksAndJumps : Prop :=
  ∀ (fp : FencePolicy) (s : State) (rd : RegIx) (b20 b11 : BitVec 1) (b10 : BitVec 10) (b19 : BitVec 8) (imm : Word),
    decode fp (b20 ++ b10 ++ b11 ++ b19 ++ rd ++ 0x6F#7) =
      .instr (.jal rd (BitVec.ofInt 32 (b20 ++ b19 ++ b11 ++ b10 ++ 0#1 : BitVec 21).toInt)) ∧
    ∃ t, exec (.jal rd imm) s = .next t ∧ WritesReg s t rd (s.pc + 4#32) (s.pc + imm)

/-- R282: jalr, encoding and effect: link pc + 4, target from the old x[rs1] with bit 0 cleared (bit 1 kept). That the other
funct3 values are `UnknownFunctionCode` is the spec's own decision (D9, log 10). -/
def Obligations.JalrDecodesLinksAndJumpsWithBitZeroCleared : Prop :=
  ∀ (fp : FencePolicy) (s : State) (rd rs1 : RegIx) (i : BitVec 12) (imm : Word),
    decode fp (i ++ rs1 ++ 0#3 ++ rd ++ 0x67#7) = .instr (.jalr rd rs1 (BitVec.ofInt 32 i.toInt)) ∧
    (∀ f3 : BitVec 3, f3 ≠ 0#3 → decode fp (i ++ rs1 ++ f3 ++ rd ++ 0x67#7) =
      .unknown .functionCode (i ++ rs1 ++ f3 ++ rd ++ 0x67#7)) ∧
    ∃ t, exec (.jalr rd rs1 imm) s = .next t ∧
      WritesReg s t rd (s.pc + 4#32) (BitVec.ofNat 32 ((s.readReg rs1 + imm).toNat / 2 * 2))

/-- R291, R292: lui and auipc, encoding and effect. -/
def Obligations.LuiAuipcDecodeAndWriteUpperImmediate : Prop :=
  ∀ (fp : FencePolicy) (s : State) (rd : RegIx) (u : BitVec 20) (imm : Word),
    decode fp (u ++ rd ++ 0x37#7) = .instr (.lui rd (BitVec.ofNat 32 (u.toNat * 4096))) ∧
    decode fp (u ++ rd ++ 0x17#7) = .instr (.auipc rd (BitVec.ofNat 32 (u.toNat * 4096))) ∧
    (∃ t, exec (.lui rd imm) s = .next t ∧ WritesReg s t rd imm (s.pc + 4#32)) ∧
    (∃ t, exec (.auipc rd imm) s = .next t ∧ WritesReg s t rd (s.pc + imm) (s.pc + 4#32))

/-! ## Rules over all instructions -/

/-- R156: every instruction of every state answers a next state; pc becomes what the table of R156 says, and stays for an
access that fails. Which accesses fail is an inference the spec marks as derived (R302), and that a failing access answers a
next state is the model's reading (DEDUCED, log 14). -/
def Obligations.EveryInstructionCompletesAtTheNextPcOfTheTable : Prop :=
  ∀ (i : Instr) (s : State), ∃ t, exec i s = .next t ∧ t.pc = if dataFault s i then s.pc else nextPc s i

/-- R302 (an inference the spec marks as derived): which instructions fail, and when: exactly the misaligned lh, lhu, lw,
sh, sw under `trap` enter Halted with `UnalignedAccess`; every other execution leaves the loop's state and record alone. -/
def Obligations.OnlyMisalignedHalfAndWordAccessesFail : Prop :=
  ∀ (i : Instr) (s t : State), exec i s = .next t →
    (dataFault s i = true → Failed s t .unalignedAccess) ∧ (dataFault s i = false → SameLoop s t)

/-- R34, R161: a register reads differently after an instruction only if it is that instruction's destination and not x0,
and the instruction did not fail; stores, branches and failing instructions write no register. -/
def Obligations.OnlyTheDestinationRegisterChanges : Prop :=
  ∀ (i : Instr) (s t : State) (r : RegIx), exec i s = .next t → t.readReg r ≠ s.readReg r →
    dest i = some r ∧ r ≠ 0#5 ∧ dataFault s i = false

/-- R72: "No instruction other than the loads, the stores and the fetch touches memory": a byte reads differently after an
instruction only if that instruction is a store to it that does not fail. -/
def Obligations.OnlyStoredBytesChange : Prop :=
  ∀ (i : Instr) (s t : State) (a : Word), exec i s = .next t →
    storesTo s a i = false ∨ dataFault s i = true → Memory.readByte t.mem a = Memory.readByte s.mem a

/-- R117 (an inference the spec marks as derived): an instruction whose destination is x0, and which does not fail, changes
nothing but pc. -/
def Obligations.DestinationZeroChangesOnlyPc : Prop :=
  ∀ (i : Instr) (s : State), dest i = some 0#5 → dataFault s i = false →
    ∃ t, exec i s = .next t ∧ WritesPc s t (nextPc s i)

/-- R120 (from general knowledge by the spec's own word, log 22): the expansions that split a 32-bit value are instructions an
encoding exists for, and executed in order they do what their names say: `li` loads the value, `la` loads pc + off, `call`
links the address behind it in x1 and jumps to pc + off (bit 0 cleared). -/
def Obligations.SplitPseudoInstructionsComputeTheWholeValue : Prop :=
  ∀ (s : State) (rd : RegIx) (v : Word),
    (∀ p ∈ [Pseudo.li rd v, Pseudo.la rd v, Pseudo.call v], ∀ i ∈ p.expand, i.wellFormed = true) ∧
    (∃ t, execAll (Pseudo.li rd v).expand s = .next t ∧
      WritesReg s t rd v (s.pc + BitVec.ofNat 32 (4 * (Pseudo.li rd v).expand.length))) ∧
    (∃ t, execAll (Pseudo.la rd v).expand s = .next t ∧ WritesReg s t rd (s.pc + v) (s.pc + 8#32)) ∧
    (∃ t, execAll (Pseudo.call v).expand s = .next t ∧ WritesReg s t 1#5 (s.pc + 8#32) ((s.pc + v) &&& 0xFFFFFFFE#32))

/-! ## Encoding and decoding (30) -/

/-- Decode of encode: no operand bit of any well-formed instruction is lost. -/
def Obligations.DecodeOfEncodeIsTheInstruction : Prop :=
  ∀ (fp : FencePolicy) (i : Instr), i.wellFormed = true → decode fp (encode i) = .instr i

/-- Encode of decode: a word that decodes to an instruction is that instruction's word, and the instruction is well-formed.
-/
def Obligations.EncodeOfDecodeIsTheWord : Prop :=
  ∀ (w : Word) (i : Instr), decode .unknown w = .instr i → i.wellFormed = true ∧ encode i = w

/-- R110 with the opcode table: a word decodes to an instruction exactly when a row of the table admits it, and then to that
row's instruction. -/
def Obligations.DecoderAcceptsExactlyTheOpcodeTable : Prop :=
  (∀ (fp : FencePolicy) (w : Word) (row : OpcodeRow), row ∈ opcodeTable → row.admits w = true →
    ∃ i, decode fp w = .instr i ∧ i.mnemonic = row.mnemonic) ∧
  (∀ (w : Word) (i : Instr), decode .unknown w = .instr i →
    ∃ row ∈ opcodeTable, row.mnemonic = i.mnemonic ∧ row.admits w = true)

/-- R102, R103, R105: the I-, S- and U-immediates, bit by bit, and their ranges. -/
def Obligations.ImmediatesISAndUTakeTheStatedBits : Prop :=
  ∀ w : Word,
    (∀ k < 32, (Field.immI w).getLsbD k = if k < 12 then w.getLsbD (k + 20) else w.getLsbD 31) ∧
    Field.immI w = w.sshiftRight 20 ∧ -2048 ≤ (Field.immI w).toInt ∧ (Field.immI w).toInt ≤ 2047 ∧
    (∀ k < 32, (Field.immS w).getLsbD k =
      if k < 5 then w.getLsbD (k + 7) else if k < 12 then w.getLsbD (k + 20) else w.getLsbD 31) ∧
    -2048 ≤ (Field.immS w).toInt ∧ (Field.immS w).toInt ≤ 2047 ∧
    (∀ k < 32, (Field.immU w).getLsbD k = if k < 12 then false else w.getLsbD k) ∧
    Field.immU w = w &&& 0xFFFFF000#32

/-- R104, R106: the B- and J-immediates, bit by bit, their ranges, always even; the J-immediate also by the source's
mechanism of sign extension. -/
def Obligations.ImmediatesBAndJTakeTheStatedBits : Prop :=
  ∀ w : Word,
    (∀ k < 32, (Field.immB w).getLsbD k =
      if k = 0 then false else if k ≤ 4 then w.getLsbD (k + 7) else if k ≤ 10 then w.getLsbD (k + 20)
      else if k = 11 then w.getLsbD 7 else w.getLsbD 31) ∧
    -4096 ≤ (Field.immB w).toInt ∧ (Field.immB w).toInt ≤ 4094 ∧ (Field.immB w).toNat % 2 = 0 ∧
    (∀ k < 32, (Field.immJ w).getLsbD k =
      if k = 0 then false else if k ≤ 10 then w.getLsbD (k + 20) else if k = 11 then w.getLsbD 20
      else if k ≤ 19 then w.getLsbD k else w.getLsbD 31) ∧
    -1048576 ≤ (Field.immJ w).toInt ∧ (Field.immJ w).toInt ≤ 1048574 ∧ (Field.immJ w).toNat % 2 = 0 ∧
    Field.immJ w = ((w.extractLsb' 31 1 ++ w.extractLsb' 12 8 ++ w.extractLsb' 20 1 ++ w.extractLsb' 21 10 ++ 0#1 :
      BitVec 21).setWidth 32 <<< 11).sshiftRight 11

/-- R15: `sext_N` by its bits and by the source's mechanism (left shift, then arithmetic right shift), `zext_N`, and the
I-type immediate as the word shifted right arithmetically by 20. -/
def Obligations.SignExtensionIsLeftShiftThenArithmeticRightShift : Prop :=
  (∀ w : Word, Field.immI w = w.sshiftRight 20) ∧
  ∀ (n : Nat) (v : BitVec n), 0 < n → n ≤ 32 →
    (∀ k < 32, (sext v).getLsbD k = if k < n then v.getLsbD k else v.getLsbD (n - 1)) ∧
    sext v = ((zext v) <<< (32 - n)).sshiftRight (32 - n) ∧
    (∀ k < 32, (zext v).getLsbD k = if k < n then v.getLsbD k else false)

/-- R114 (an inference the spec marks as derived; strictness is its decisions D7 to D9, log 10): the `UnknownFunctionCode`
words, exhaustively. -/
def Obligations.UnknownFunctionCodeWordsAreExactlyTheListed : Prop :=
  ∀ (fp : FencePolicy) (w : Word),
    let opc := w.extractLsb' 0 7
    let f3 := w.extractLsb' 12 3
    let f7 := w.extractLsb' 25 7
    decode fp w = .unknown .functionCode w ↔
      (opc = 0x33#7 ∧ (f7 ≠ 0x00#7 ∧ f7 ≠ 0x20#7 ∨
        f7 = 0x20#7 ∧ f3 ∈ [0b001#3, 0b010#3, 0b011#3, 0b100#3, 0b110#3, 0b111#3])) ∨
      (opc = 0x13#7 ∧ (f3 = 0b001#3 ∧ f7 ≠ 0x00#7 ∨ f3 = 0b101#3 ∧ f7 ≠ 0x00#7 ∧ f7 ≠ 0x20#7)) ∨
      (opc = 0x03#7 ∧ f3 ∈ [0b011#3, 0b110#3, 0b111#3]) ∨
      (opc = 0x23#7 ∧ f3 ∈ [0b011#3, 0b100#3, 0b101#3, 0b110#3, 0b111#3]) ∨
      (opc = 0x63#7 ∧ f3 ∈ [0b010#3, 0b011#3]) ∨
      (opc = 0x67#7 ∧ f3 ≠ 0b000#3) ∨
      (opc = 0x0F#7 ∧ fp = .nop ∧ f3 ∉ [0b000#3, 0b001#3])

/-- R115, R116 (inferences the spec marks as derived): a word decodes to `Unknown(UnknownOpcode, w)` exactly when its low 7
bits are none of the supported opcodes; every `Unknown` carries the whole word. -/
def Obligations.UnknownOpcodeWordsAreExactlyThoseOfUnsupportedOpcodes : Prop :=
  ∀ (fp : FencePolicy) (w : Word),
    (decode fp w = .unknown .opcode w ↔
      w.extractLsb' 0 7 ∉ [0x33#7, 0x13#7, 0x03#7, 0x23#7, 0x63#7, 0x37#7, 0x17#7, 0x6F#7, 0x67#7] ∧
      ¬ (w.extractLsb' 0 7 = 0x0F#7 ∧ fp = .nop)) ∧
    (∀ k w', decode fp w = .unknown k w' → w' = w) ∧
    (w.extractLsb' 0 2 ≠ 0b11#2 → decode fp w = .unknown .opcode w)

/-- R112, R113 (the spec's decisions D10, D11, log 7): MISC-MEM words per `FENCE_POLICY`, and SYSTEM words. -/
def Obligations.FenceAndSystemWordsDecodeAsTheirPoliciesSay : Prop :=
  ∀ w : Word,
    (w.extractLsb' 0 7 = 0x0F#7 →
      decode .unknown w = .unknown .opcode w ∧
      (w.extractLsb' 12 3 = 0#3 ∨ w.extractLsb' 12 3 = 1#3 → decode .nop w = .instr (.addi 0#5 0#5 0#32)) ∧
      (¬ (w.extractLsb' 12 3 = 0#3 ∨ w.extractLsb' 12 3 = 1#3) → decode .nop w = .unknown .functionCode w)) ∧
    (∀ fp : FencePolicy, w.extractLsb' 0 7 = 0x73#7 → decode fp w = .unknown .opcode w)

/-- R109 and words of the other families, each written out from its layout: a sanity check. -/
def Obligations.WorkedWordsDecodeAsStated : Prop :=
  decode .unknown 0xfe010113#32 = .instr (.addi 2#5 2#5 0xFFFFFFE0#32) ∧
  decode .unknown 0b0100000_00010_00001_000_00011_0110011#32 = .instr (.sub 3#5 1#5 2#5) ∧
  decode .unknown 0b000000000011_00010_000_00101_0000011#32 = .instr (.lb 5#5 2#5 3#32) ∧
  decode .unknown 0b1111111_00110_00010_010_11111_0100011#32 = .instr (.sw 2#5 6#5 0xFFFFFFFF#32) ∧
  decode .unknown 0b1_111111_00010_00001_001_1110_1_1100011#32 = .instr (.bne 1#5 2#5 0xFFFFFFFC#32) ∧
  decode .unknown 0b0_0000000000_1_00000000_00001_1101111#32 = .instr (.jal 1#5 2048#32) ∧
  decode .unknown 0b00010010001101000101_00001_0110111#32 = .instr (.lui 1#5 0x12345000#32)

/-! ## Registers and memory (10, 20) -/

/-- R32, R33, R34: x0 reads 0 and a write to it is discarded; another register reads the value last written to it; no other
register and no other state changes. -/
def Obligations.RegisterFileReadsLastWriteAndZeroForRegisterZero : Prop :=
  ∀ (s : State) (r q : RegIx) (v : Word),
    s.readReg 0#5 = 0#32 ∧ s.writeReg 0#5 v = s ∧
    (s.writeReg r v).readReg q = (if q = r ∧ r ≠ 0#5 then v else s.readReg q) ∧
    WritesReg s (s.writeReg r v) r v s.pc

/-- R61, R66: `WordRead` is the little-endian word of its four bytes; the byte at `a` is lane `a & 3` of it, and the
halfword at lane 0 or 2 its bytes `a`, `a + 1`. -/
def Obligations.WordReadIsLittleEndianWithByteLanes : Prop :=
  ∀ (m : Memory) (a : Word),
    Memory.readByte m a = (Memory.wordRead m a).extractLsb' (8 * (a.toNat % 4)) 8 ∧
    (a.toNat % 2 = 0 → (Memory.wordRead m a).extractLsb' (8 * (a.toNat % 4)) 16 =
      Memory.readByte m (a + 1#32) ++ Memory.readByte m a) ∧
    Memory.wordRead m a = Memory.wordRead m (a &&& 0xFFFFFFFC#32)

/-- R63: `WordWrite` sets the four bytes of the aligned word, little-endian, and no other byte. -/
def Obligations.WordWriteSetsExactlyTheFourBytes : Prop :=
  ∀ (m : Memory) (a w b : Word), Memory.readByte (Memory.wordWrite m a w) b =
    if b &&& 0xFFFFFFFC#32 = a &&& 0xFFFFFFFC#32 then w.extractLsb' (8 * (b.toNat % 4)) 8 else Memory.readByte m b

/-- R64: "write(A, V); read(A) == V". That every other word is unchanged is an inference the spec marks as derived there. -/
def Obligations.WordWriteThenReadRoundTrips : Prop :=
  ∀ (m : Memory) (a b v : Word), Memory.wordRead (Memory.wordWrite m a v) b =
    if b &&& 0xFFFFFFFC#32 = a &&& 0xFFFFFFFC#32 then v else Memory.wordRead m b

/-- R70 (an inference the spec marks as derived): what a misaligned access reads and writes under `mask`. -/
def Obligations.MaskedMisalignedAccessesUseTheContainingWord : Prop :=
  ∀ (m : Memory) (a v : Word),
    Memory.memRead m a .word = Memory.wordRead m (a &&& 0xFFFFFFFC#32) ∧
    Memory.memWrite m a .word v = Memory.wordWrite m (a &&& 0xFFFFFFFC#32) v ∧
    (a.toNat % 4 = 1 →
      (Memory.memRead m a .half).extractLsb' 0 16 = Memory.readByte m (a + 1#32) ++ Memory.readByte m a ∧
      ∀ b, Memory.readByte (Memory.memWrite m a .half v) b =
        if b = a then v.extractLsb' 0 8 else if b = a + 1#32 then v.extractLsb' 8 8 else Memory.readByte m b) ∧
    (a.toNat % 4 = 3 →
      (Memory.memRead m a .half).extractLsb' 0 16 = 0#8 ++ Memory.readByte m a ∧
      sext ((Memory.memRead m a .half).extractLsb' 0 16) = zext ((Memory.memRead m a .half).extractLsb' 0 16) ∧
      ∀ b, Memory.readByte (Memory.memWrite m a .half v) b =
        if b = a then v.extractLsb' 0 8 else Memory.readByte m b)

/-- R26: the snapshot holds every register as it reads, and pc. -/
def Obligations.SnapshotShowsRegistersAndPc : Prop :=
  ∀ (s : State) (r : RegIx), s.snapshot.x[r.toNat]'r.isLt = s.readReg r ∧ s.snapshot.pc = s.pc

/-- Two states of the machine that read the same are the same data (the model's canonical form, log 13). -/
def Obligations.ReadingsDetermineTheState : Prop :=
  ∀ s t : State, s.Inv → t.Inv → SameRegs s t → SameBytes s t → SameLoop s t → t.pc = s.pc → t = s

/-! ## Reset and loading (70) -/

/-- R331, R333 (the order and the refusal are the spec's inference and decision D18, log 18): what a machine holds when its
loader has delivered an image and an entry pc; an image with two entries for one word is refused. -/
def Obligations.CreationZeroesWritesTheImageAndStarts : Prop :=
  ∀ (params : Params) (entry : Word) (image : Image),
    (image.Pairwise (fun e f => e.1 &&& 0xFFFFFFFC#32 ≠ f.1 &&& 0xFFFFFFFC#32) →
      ∃ t, State.create params entry image = .next t ∧ t.pc = entry ∧ t.run = .running ∧ t.report = none ∧
        t.params = params ∧ (∀ r, t.readReg r = 0#32) ∧ t.Inv ∧
        (∀ e ∈ image, Memory.wordRead t.mem e.1 = e.2) ∧
        ∀ a : Word, (∀ e ∈ image, e.1 &&& 0xFFFFFFFC#32 ≠ a &&& 0xFFFFFFFC#32) → Memory.readByte t.mem a = 0#8) ∧
    (¬ image.Pairwise (fun e f => e.1 &&& 0xFFFFFFFC#32 ≠ f.1 &&& 0xFFFFFFFC#32) →
      State.create params entry image = .refused .duplicateImageWord)

/-- R47: the reset values the spec gives (registers, memory, run, report), and the invariant. The pc is the model's choice
(log 2) and not stated. -/
def Obligations.ResetHoldsTheStatedValuesAndTheInvariant : Prop :=
  (∀ r, State.reset.readReg r = 0#32) ∧ (∀ a, Memory.readByte State.reset.mem a = 0#8) ∧
  State.reset.run = .running ∧ State.reset.report = none ∧ State.reset.Inv

/-! ## The step (40, 60) -/

/-- R150: when the fetched word decodes to an instruction, the step is that instruction's execution in the same state, pc
included; the only thing around it is what `Undisturbed` excludes. -/
def Obligations.StepRunsTheDecodedInstruction : Prop :=
  ∀ (s : State) (i : Instr), Undisturbed s → decode s.params.fence (wordAt s s.pc) = .instr i → step s = exec i s

/-- R301, R304, R305: an `Unknown` word halts the loop with its kind and the record (kind, pc, word), and changes no
register, no memory and not pc. -/
def Obligations.StepOfUnknownWordHaltsWithItsRecord : Prop :=
  ∀ s : State, Undisturbed s →
    (decode s.params.fence (wordAt s s.pc) = .unknown .opcode (wordAt s s.pc) →
      ∃ t, step s = .next t ∧ Failed s t .unknownOpcode) ∧
    (decode s.params.fence (wordAt s s.pc) = .unknown .functionCode (wordAt s s.pc) →
      ∃ t, step s = .next t ∧ Failed s t .unknownFunctionCode)

/-- R151, R152 (the policy is the spec's decision D5, log 6): the fetch reads the aligned word at `pc & ~3`; under `trap` a
pc with low bits fails before decoding, under `mask` the word is executed with the unaligned pc as the instruction's
address. -/
def Obligations.FetchAlignmentFollowsItsPolicy : Prop :=
  ∀ s : State, s.run = .running → s.haltHolds = false →
    s.fetchWord = wordAt s s.pc ∧
    (s.params.fetchAlign = .trap → s.pc.toNat % 4 ≠ 0 → ∃ t, step s = .next t ∧ Failed s t .unalignedAccess) ∧
    (s.params.fetchAlign = .mask → ∀ i, decode s.params.fence (wordAt s s.pc) = .instr i → step s = exec i s)

/-- R153 (the spec's decision D17, log 9): when `HALT_PRED` holds the loop enters Halted and nothing else changes: no
record, and the instruction at pc is not executed. -/
def Obligations.HaltPredicateHaltsCleanlyBeforeFetch : Prop :=
  ∀ s : State, s.run = .running → s.report = none → s.haltHolds = true →
    ∃ t, step s = .next t ∧ t.run = .halted ∧ t.report = none ∧ t.pc = s.pc ∧ SameRegs s t ∧ SameBytes s t ∧
      t.params = s.params ∧ t.status = .cleanHalt

/-- R157: a SYSTEM word goes to the environment when a hook is present (its answer is the next state, read by its registers,
bytes, pc, run and, when halted, record; the parameters stay, log 8), and is `UnknownOpcode` when it is absent. -/
def Obligations.SystemWordGoesToTheHookOrFails : Prop :=
  ∀ s : State, s.run = .running → s.haltHolds = false → (s.params.fetchAlign = .trap → s.pc.toNat % 4 = 0) →
    (wordAt s s.pc).extractLsb' 0 7 = 0x73#7 →
    (s.params.systemHook = .present → ∃ t, step s = .next t ∧
      let answer := Config.systemHook s (wordAt s s.pc)
      SameRegs answer t ∧ SameBytes answer t ∧ t.pc = answer.pc ∧ t.run = answer.run ∧
      (t.run = .halted → t.report = answer.report) ∧ (t.run = .running → t.report = none) ∧ t.params = s.params) ∧
    (s.params.systemHook = .absent → ∃ t, step s = .next t ∧ Failed s t .unknownOpcode)

/-- "A machine in state Halted has no step" (R150, R159), whatever halted it: that this is the fault `halted` with the
record is the model's reading (DEDUCED, log 15). A Running machine always has a step (R150). -/
def Obligations.HaltedHasNoStepAndRunningAlwaysHasOne : Prop :=
  ∀ s : State, (s.run = .halted → step s = .fault (.halted s.report)) ∧ (s.run = .running → ∃ t, step s = .next t)

/-- R303: when several errors could apply, the one reported: fetch alignment, then unknown opcode, then unknown function
code, then data alignment; a clean halt is tested before all. The spec marks this order as its own decision (D14). A word
that a `SYSTEM_HOOK` takes is left out: its answer is the environment's. -/
def Obligations.ErrorsAreReportedInTheStatedPriority : Prop :=
  ∀ s : State, s.run = .running → s.report = none →
    (s.params.systemHook = .present → (wordAt s s.pc).extractLsb' 0 7 ≠ 0x73#7) →
    ∃ t, step s = .next t ∧
      t.report =
        if s.haltHolds then none
        else if s.params.fetchAlign = .trap ∧ s.pc.toNat % 4 ≠ 0 then some ⟨.unalignedAccess, s.pc, wordAt s s.pc⟩
        else match decode s.params.fence (wordAt s s.pc) with
          | .unknown .opcode _ => some ⟨.unknownOpcode, s.pc, wordAt s s.pc⟩
          | .unknown .functionCode _ => some ⟨.unknownFunctionCode, s.pc, wordAt s s.pc⟩
          | .instr i => if dataFault s i then some ⟨.unalignedAccess, s.pc, wordAt s s.pc⟩ else none

/-- R304: "A failing step changes no architectural register and no memory and leaves pc unchanged", whichever error it is (a
record that a `SYSTEM_HOOK` answered is no failure of the core). -/
def Obligations.EveryRecordedFailureIsPrecise : Prop :=
  ∀ (s t : State) (r : Report), s.run = .running → s.report = none →
    (s.params.systemHook = .present → (wordAt s s.pc).extractLsb' 0 7 ≠ 0x73#7) →
    step s = .next t → t.report = some r → Failed s t r.kind

/-- R80 (an inference the spec marks as derived): a store to the next instruction's word is seen by the very next fetch,
which executes the stored word. -/
def Obligations.StoreIsSeenByTheNextFetch : Prop :=
  ∀ (s : State) (rs1 rs2 : RegIx) (imm : Word), dataFault s (.sw rs1 rs2 imm) = false →
    s.effAddr rs1 imm &&& 0xFFFFFFFC#32 = (s.pc + 4#32) &&& 0xFFFFFFFC#32 →
    ∃ t, exec (.sw rs1 rs2 imm) s = .next t ∧ t.fetchWord = s.readReg rs2 ∧
      ∀ i, Undisturbed t → decode t.params.fence (s.readReg rs2) = .instr i → step t = exec i t

/-- The invariant of the machine's states (canonical memory, x0's slot 0, no record while Running) is kept by every step. -/
def Obligations.StepKeepsTheStateInvariant : Prop :=
  ∀ s t : State, s.Inv → step s = .next t → t.Inv

/-- Unless a hook answers, no step makes pc odd: branch and jal offsets are even and jalr clears bit 0. -/
def Obligations.StepKeepsThePcEven : Prop :=
  ∀ s t : State, (s.params.systemHook = .present → (wordAt s s.pc).extractLsb' 0 7 ≠ 0x73#7) →
    s.pc.toNat % 2 = 0 → step s = .next t → t.pc.toNat % 2 = 0

/-- R11: the parameters are fixed for a machine: no step changes them. -/
def Obligations.StepKeepsTheParameters : Prop :=
  ∀ s t : State, step s = .next t → t.params = s.params

/-- The host's placement of a word: the very next step runs exactly the instruction the word decodes to, and nothing a
program reads but the placed word differs. -/
def Obligations.PlacedWordIsTheNextInstructionRun : Prop :=
  ∀ (s : State) (w : Nat) (i : Instr), decode s.params.fence (BitVec.ofNat 32 w) = .instr i →
    step (s.withFetchWord 32 w) = exec i (s.withFetchWord 32 w) ∧
    SameRegs s (s.withFetchWord 32 w) ∧ (s.withFetchWord 32 w).pc = s.pc ∧
    ∀ a : Word, a &&& 0xFFFFFFFC#32 ≠ s.pc &&& 0xFFFFFFFC#32 →
      Memory.readByte (s.withFetchWord 32 w).mem a = Memory.readByte s.mem a
end

