-- ==== Sys2Proof/Laws/Decode.lean ====
section
/-! SUPPORT. The fields of each layout (spec/30_encoding.md R100, R101): what the decoder's field selectors read from a word
that the encoder's layouts put together. -/

namespace Sys2Proof.Laws

variable (f7 opc : BitVec 7) (rs2 rs1 rd : RegIx) (f3 : BitVec 3) (imm : Word)

/-- Two words of fields are equal when their bits are; the bits of a field of a concatenation are read one by one. -/
theorem field_ext {n : Nat} {u v : BitVec n} (h : ∀ k < n, u.getLsbD k = v.getLsbD k) : u = v :=
  BitVec.eq_of_getLsbD_eq h

/-! ### R-type -/

@[simp] theorem opcode_encodeR : Field.opcode (encodeR f7 rs2 rs1 f3 rd opc) = opc := by
  refine field_ext fun k hk => ?_
  simp only [Field.opcode, encodeR, BitVec.getLsbD_extractLsb', BitVec.getLsbD_append]
  interval_cases k <;> simp

@[simp] theorem rd_encodeR : Field.rd (encodeR f7 rs2 rs1 f3 rd opc) = rd := by
  refine field_ext fun k hk => ?_
  simp only [Field.rd, encodeR, BitVec.getLsbD_extractLsb', BitVec.getLsbD_append]
  interval_cases k <;> simp

@[simp] theorem funct3_encodeR : Field.funct3 (encodeR f7 rs2 rs1 f3 rd opc) = f3 := by
  refine field_ext fun k hk => ?_
  simp only [Field.funct3, encodeR, BitVec.getLsbD_extractLsb', BitVec.getLsbD_append]
  interval_cases k <;> simp

@[simp] theorem rs1_encodeR : Field.rs1 (encodeR f7 rs2 rs1 f3 rd opc) = rs1 := by
  refine field_ext fun k hk => ?_
  simp only [Field.rs1, encodeR, BitVec.getLsbD_extractLsb', BitVec.getLsbD_append]
  interval_cases k <;> simp

@[simp] theorem rs2_encodeR : Field.rs2 (encodeR f7 rs2 rs1 f3 rd opc) = rs2 := by
  refine field_ext fun k hk => ?_
  simp only [Field.rs2, encodeR, BitVec.getLsbD_extractLsb', BitVec.getLsbD_append]
  interval_cases k <;> simp

@[simp] theorem funct7_encodeR : Field.funct7 (encodeR f7 rs2 rs1 f3 rd opc) = f7 := by
  refine field_ext fun k hk => ?_
  simp only [Field.funct7, encodeR, BitVec.getLsbD_extractLsb', BitVec.getLsbD_append]
  interval_cases k <;> simp

/-! ### I-type -/

@[simp] theorem opcode_encodeI : Field.opcode (encodeI imm rs1 f3 rd opc) = opc := by
  refine field_ext fun k hk => ?_
  simp only [Field.opcode, encodeI, BitVec.getLsbD_extractLsb', BitVec.getLsbD_append]
  interval_cases k <;> simp

@[simp] theorem rd_encodeI : Field.rd (encodeI imm rs1 f3 rd opc) = rd := by
  refine field_ext fun k hk => ?_
  simp only [Field.rd, encodeI, BitVec.getLsbD_extractLsb', BitVec.getLsbD_append]
  interval_cases k <;> simp

@[simp] theorem funct3_encodeI : Field.funct3 (encodeI imm rs1 f3 rd opc) = f3 := by
  refine field_ext fun k hk => ?_
  simp only [Field.funct3, encodeI, BitVec.getLsbD_extractLsb', BitVec.getLsbD_append]
  interval_cases k <;> simp

@[simp] theorem rs1_encodeI : Field.rs1 (encodeI imm rs1 f3 rd opc) = rs1 := by
  refine field_ext fun k hk => ?_
  simp only [Field.rs1, encodeI, BitVec.getLsbD_extractLsb', BitVec.getLsbD_append]
  interval_cases k <;> simp

/-! ### S-type -/

@[simp] theorem opcode_encodeS : Field.opcode (encodeS imm rs2 rs1 f3 opc) = opc := by
  refine field_ext fun k hk => ?_
  simp only [Field.opcode, encodeS, BitVec.getLsbD_extractLsb', BitVec.getLsbD_append]
  interval_cases k <;> simp

@[simp] theorem funct3_encodeS : Field.funct3 (encodeS imm rs2 rs1 f3 opc) = f3 := by
  refine field_ext fun k hk => ?_
  simp only [Field.funct3, encodeS, BitVec.getLsbD_extractLsb', BitVec.getLsbD_append]
  interval_cases k <;> simp

@[simp] theorem rs1_encodeS : Field.rs1 (encodeS imm rs2 rs1 f3 opc) = rs1 := by
  refine field_ext fun k hk => ?_
  simp only [Field.rs1, encodeS, BitVec.getLsbD_extractLsb', BitVec.getLsbD_append]
  interval_cases k <;> simp

@[simp] theorem rs2_encodeS : Field.rs2 (encodeS imm rs2 rs1 f3 opc) = rs2 := by
  refine field_ext fun k hk => ?_
  simp only [Field.rs2, encodeS, BitVec.getLsbD_extractLsb', BitVec.getLsbD_append]
  interval_cases k <;> simp

/-! ### B-type -/

@[simp] theorem opcode_encodeB : Field.opcode (encodeB imm rs2 rs1 f3 opc) = opc := by
  refine field_ext fun k hk => ?_
  simp only [Field.opcode, encodeB, BitVec.getLsbD_extractLsb', BitVec.getLsbD_append]
  interval_cases k <;> simp

@[simp] theorem funct3_encodeB : Field.funct3 (encodeB imm rs2 rs1 f3 opc) = f3 := by
  refine field_ext fun k hk => ?_
  simp only [Field.funct3, encodeB, BitVec.getLsbD_extractLsb', BitVec.getLsbD_append]
  interval_cases k <;> simp

@[simp] theorem rs1_encodeB : Field.rs1 (encodeB imm rs2 rs1 f3 opc) = rs1 := by
  refine field_ext fun k hk => ?_
  simp only [Field.rs1, encodeB, BitVec.getLsbD_extractLsb', BitVec.getLsbD_append]
  interval_cases k <;> simp

@[simp] theorem rs2_encodeB : Field.rs2 (encodeB imm rs2 rs1 f3 opc) = rs2 := by
  refine field_ext fun k hk => ?_
  simp only [Field.rs2, encodeB, BitVec.getLsbD_extractLsb', BitVec.getLsbD_append]
  interval_cases k <;> simp

/-! ### U-type -/

@[simp] theorem opcode_encodeU : Field.opcode (encodeU imm rd opc) = opc := by
  refine field_ext fun k hk => ?_
  simp only [Field.opcode, encodeU, BitVec.getLsbD_extractLsb', BitVec.getLsbD_append]
  interval_cases k <;> simp

@[simp] theorem rd_encodeU : Field.rd (encodeU imm rd opc) = rd := by
  refine field_ext fun k hk => ?_
  simp only [Field.rd, encodeU, BitVec.getLsbD_extractLsb', BitVec.getLsbD_append]
  interval_cases k <;> simp

/-! ### J-type -/

@[simp] theorem opcode_encodeJ : Field.opcode (encodeJ imm rd opc) = opc := by
  refine field_ext fun k hk => ?_
  simp only [Field.opcode, encodeJ, BitVec.getLsbD_extractLsb', BitVec.getLsbD_append]
  interval_cases k <;> simp

@[simp] theorem rd_encodeJ : Field.rd (encodeJ imm rd opc) = rd := by
  refine field_ext fun k hk => ?_
  simp only [Field.rd, encodeJ, BitVec.getLsbD_extractLsb', BitVec.getLsbD_append]
  interval_cases k <;> simp

end Sys2Proof.Laws
end

