-- ==== Sys2Proof/Laws/Memory.lean ====
section
/-! SUPPORT. Memory: a read after a write, and every memory operation keeps the canonical form (spec/20_memory.md R60 to
R68). The read-after-write laws hold for every list, canonical or not. -/

namespace Sys2Proof.Machine

variable (m : Memory) (j k : Nat) (a b : Word) (u v : Byte)

/-! ### The list operations -/

@[simp] theorem lookup_nil : Memory.lookup [] k = Memory.unlisted := rfl

theorem lookup_erase_self : Memory.lookup (Memory.erase m k) k = Memory.unlisted := by
  induction m with
  | nil => rfl
  | cons c rest ih =>
    simp only [Memory.erase]
    split
    · exact ih
    · simp [Memory.lookup, *]

theorem lookup_erase_of_ne (h : j ≠ k) : Memory.lookup (Memory.erase m k) j = Memory.lookup m j := by
  induction m with
  | nil => rfl
  | cons c rest ih =>
    by_cases hk : c.1 = k
    · have : c.1 ≠ j := fun hj => h (hj.symm.trans hk)
      simp [Memory.erase, Memory.lookup, hk, ih, Ne.symm h]
    · simp [Memory.erase, Memory.lookup, hk, ih]

theorem lookup_insert_of_ne (h : j ≠ k) : Memory.lookup (Memory.insert m k v) j = Memory.lookup m j := by
  induction m with
  | nil => simp [Memory.insert, Memory.lookup, Ne.symm h]
  | cons c rest ih =>
    simp only [Memory.insert]
    split
    · simp [Memory.lookup, Ne.symm h]
    · simp [Memory.lookup, ih]

theorem lookup_insert_self (h : Memory.lookup m k = Memory.unlisted) (he : ∀ c ∈ m, c.1 ≠ k) :
    Memory.lookup (Memory.insert m k v) k = v := by
  induction m with
  | nil => simp [Memory.insert, Memory.lookup]
  | cons c rest ih =>
    have hc : c.1 ≠ k := he c (by simp)
    simp only [Memory.insert]
    split
    · simp [Memory.lookup]
    · simp only [Memory.lookup, hc, if_false] at h ⊢
      exact ih h fun d hd => he d (by simp [hd])

theorem mem_erase {c : Host.Cell} (hc : c ∈ Memory.erase m k) : c ∈ m ∧ c.1 ≠ k := by
  induction m with
  | nil => simp [Memory.erase] at hc
  | cons d rest ih =>
    simp only [Memory.erase] at hc
    split at hc
    · exact ⟨by simp [(ih hc).1], (ih hc).2⟩
    · rcases List.mem_cons.mp hc with rfl | h
      · exact ⟨by simp, by assumption⟩
      · exact ⟨by simp [(ih h).1], (ih h).2⟩

theorem mem_insert {c : Host.Cell} : c ∈ Memory.insert m k v ↔ c = (k, v) ∨ c ∈ m := by
  induction m with
  | nil => simp [Memory.insert]
  | cons d rest ih =>
    simp only [Memory.insert]
    split
    · simp
    · simp only [List.mem_cons, ih]; tauto

/-! ### One byte -/

/-- A byte read after a byte write (R63, R64). -/
theorem readByte_writeByte :
    Memory.readByte (Memory.writeByte m a v) b = if b = a then v else Memory.readByte m b := by
  unfold Memory.readByte Memory.writeByte
  by_cases h : b = a
  · subst h
    simp only [if_true]
    split
    · rename_i hv; rw [lookup_erase_self, hv]
    · exact lookup_insert_self _ _ _ (lookup_erase_self _ _) fun c hc => (mem_erase _ _ hc).2
  · have hn : b.toNat ≠ a.toNat := fun e => h (BitVec.eq_of_toNat_eq e)
    simp only [h, if_false]
    split
    · rw [lookup_erase_of_ne _ _ _ hn]
    · rw [lookup_insert_of_ne _ _ _ _ hn, lookup_erase_of_ne _ _ _ hn]

@[simp] theorem readByte_nil : Memory.readByte [] a = Memory.unlisted := rfl

/-! ### The canonical form -/

theorem wf_nil : Memory.wf [] := by simp [Memory.wf]

theorem wf_erase (h : Memory.wf m) : Memory.wf (Memory.erase m k) := by
  obtain ⟨hp, hv⟩ := h
  refine ⟨?_, fun c hc => hv c (mem_erase _ _ hc).1⟩
  clear hv
  induction m with
  | nil => simp [Memory.erase]
  | cons c rest ih =>
    obtain ⟨h1, h2⟩ := List.pairwise_cons.mp hp
    simp only [Memory.erase]
    split
    · exact ih h2
    · exact List.pairwise_cons.mpr ⟨fun d hd => h1 d (mem_erase _ _ hd).1, ih h2⟩

theorem wf_insert (h : Memory.wf m) (he : ∀ c ∈ m, c.1 ≠ k) (hk : k < 2 ^ 32) (hv : v ≠ Memory.unlisted) :
    Memory.wf (Memory.insert m k v) := by
  obtain ⟨hp, hm⟩ := h
  refine ⟨?_, fun c hc => ?_⟩
  · clear hm
    induction m with
    | nil => simp [Memory.insert]
    | cons c rest ih =>
      obtain ⟨h1, h2⟩ := List.pairwise_cons.mp hp
      have hc : c.1 ≠ k := he c (by simp)
      simp only [Memory.insert]
      split
      · rename_i hlt
        refine List.pairwise_cons.mpr ⟨fun d hd => ?_, hp⟩
        rcases List.mem_cons.mp hd with rfl | hd
        · exact hlt
        · exact lt_trans hlt (h1 d hd)
      · refine List.pairwise_cons.mpr ⟨fun d hd => ?_, ih (fun d hd => he d (by simp [hd])) h2⟩
        rcases (mem_insert _ _ _).mp hd with rfl | hd
        · simp only; omega
        · exact h1 d hd
  · rcases (mem_insert _ _ _).mp hc with rfl | hc
    · exact ⟨hk, hv⟩
    · exact hm c hc

/-- A byte write keeps the canonical form. -/
theorem wf_writeByte (h : Memory.wf m) : Memory.wf (Memory.writeByte m a v) := by
  unfold Memory.writeByte
  split
  · exact wf_erase _ _ h
  · exact wf_insert _ _ _ (wf_erase _ _ h) (fun c hc => (mem_erase _ _ hc).2) a.isLt (by assumption)

/-- `WordWrite` keeps the canonical form. -/
theorem wf_wordWrite (w : Word) (h : Memory.wf m) : Memory.wf (Memory.wordWrite m a w) := by
  unfold Memory.wordWrite
  exact wf_writeByte _ _ _ (wf_writeByte _ _ _ (wf_writeByte _ _ _ (wf_writeByte _ _ _ h)))

/-- `MemWrite` keeps the canonical form. -/
theorem wf_memWrite (n : Width) (w : Word) (h : Memory.wf m) : Memory.wf (Memory.memWrite m a n w) := by
  cases n <;> exact wf_wordWrite _ _ _ h

/-- The loader's image keeps the canonical form. -/
theorem wf_imageWrite (image : Image) (h : Memory.wf m) : Memory.wf (Image.write m image) := by
  induction image generalizing m with
  | nil => exact h
  | cons e rest ih => exact ih _ (wf_wordWrite _ _ _ h)

/-- `Memory.canonical` gives the canonical form. -/
theorem wf_canonical : Memory.wf (Memory.canonical m) := by
  induction m with
  | nil => exact wf_nil
  | cons c rest ih =>
    simp only [Memory.canonical]
    split
    · exact wf_writeByte _ _ _ ih
    · exact ih

/-- ... and changes no byte. -/
theorem readByte_canonical : Memory.readByte (Memory.canonical m) a = Memory.readByte m a := by
  induction m with
  | nil => rfl
  | cons c rest ih =>
    simp only [Memory.canonical]
    split
    · rename_i hlt
      rw [readByte_writeByte]
      simp only [Memory.readByte, Memory.lookup] at ih ⊢
      have : a = BitVec.ofNat 32 c.1 ↔ c.1 = a.toNat := by
        rw [← BitVec.toNat_inj, BitVec.toNat_ofNat, Nat.mod_eq_of_lt hlt, eq_comm]
      simp only [this, ih]
    · rename_i hge
      have : c.1 ≠ a.toNat := fun e => hge (e ▸ a.isLt)
      simpa [Memory.readByte, Memory.lookup, this] using ih

/-! ### The word port -/

/-- A byte read after `WordWrite`: the four bytes of the word, no other (R63). -/
theorem readByte_wordWrite (w : Word) :
    Memory.readByte (Memory.wordWrite m a w) b =
      if b = wordAddr a + 3#32 then byteOf w 3
      else if b = wordAddr a + 2#32 then byteOf w 2
      else if b = wordAddr a + 1#32 then byteOf w 1
      else if b = wordAddr a then byteOf w 0
      else Memory.readByte m b := by
  simp only [Memory.wordWrite, readByte_writeByte]

end Sys2Proof.Machine
end

