-- ==== Sys2Proof/Laws/State.lean ====
section
/-! SUPPORT. One lemma per field of State per update, so that no later proof unfolds a record update; and the laws of the
Register File (spec/10_state.md R32 to R34). -/

namespace Sys2Proof.Machine

variable (s t : State) (r q : RegIx) (v w : Word) (k : ErrorKind)

/-! ### setPc -/

@[simp] theorem setPc_x : (s.setPc v).x = s.x := rfl
@[simp] theorem setPc_pc : (s.setPc v).pc = v := rfl
@[simp] theorem setPc_mem : (s.setPc v).mem = s.mem := rfl
@[simp] theorem setPc_run : (s.setPc v).run = s.run := rfl
@[simp] theorem setPc_report : (s.setPc v).report = s.report := rfl
@[simp] theorem setPc_params : (s.setPc v).params = s.params := rfl
@[simp] theorem setPc_readReg : (s.setPc v).readReg r = s.readReg r := rfl

/-! ### writeReg -/

@[simp] theorem writeReg_pc : (s.writeReg r v).pc = s.pc := by unfold State.writeReg; split <;> rfl
@[simp] theorem writeReg_mem : (s.writeReg r v).mem = s.mem := by unfold State.writeReg; split <;> rfl
@[simp] theorem writeReg_run : (s.writeReg r v).run = s.run := by unfold State.writeReg; split <;> rfl
@[simp] theorem writeReg_report : (s.writeReg r v).report = s.report := by unfold State.writeReg; split <;> rfl
@[simp] theorem writeReg_params : (s.writeReg r v).params = s.params := by unfold State.writeReg; split <;> rfl

/-- A write to a register other than x0 stores its value in that slot alone. -/
theorem writeReg_x_of_ne (h : r ≠ 0#5) : (s.writeReg r v).x = s.x.set r.toNat v r.isLt := by
  simp [State.writeReg, h]

/-- "no-op when index is 0" (R33) -/
@[simp] theorem writeReg_zero : s.writeReg 0#5 v = s := rfl

/-- "returns 0 when index is 0" (R32) -/
@[simp] theorem readReg_zero : s.readReg 0#5 = 0#32 := rfl

theorem readReg_of_ne (h : r ≠ 0#5) : s.readReg r = s.x[r.toNat]'r.isLt := by
  simp [State.readReg, h]

/-- What a register reads after a write (R32 to R34). -/
theorem readReg_writeReg : (s.writeReg r v).readReg q = if q = r ∧ r ≠ 0#5 then v else s.readReg q := by
  by_cases hr : r = 0#5
  · subst hr; simp
  · by_cases hq : q = 0#5
    · subst hq; simp [hr, Ne.symm hr]
    · have hx := writeReg_x_of_ne s r v hr
      rw [readReg_of_ne _ _ hq, readReg_of_ne _ _ hq]
      simp only [hx, Vector.getElem_set]
      by_cases he : q = r
      · subst he; simp [hr]
      · have : r.toNat ≠ q.toNat := fun h => he (BitVec.eq_of_toNat_eq h.symm)
        simp [he, this]

/-- The register file reads the same when only other fields differ. -/
theorem readReg_congr (h : s.x = t.x) : s.readReg r = t.readReg r := by simp [State.readReg, h]

/-- Writing a register never touches slot 0. -/
@[simp] theorem writeReg_slot_zero : (s.writeReg r v).x[0] = s.x[0] := by
  unfold State.writeReg
  split
  · rfl
  · rename_i h
    have : r.toNat ≠ 0 := fun h0 => h (BitVec.eq_of_toNat_eq (by simpa using h0))
    simp [this]

/-! ### raise and cleanHalt -/

@[simp] theorem raise_x : (s.raise k).x = s.x := rfl
@[simp] theorem raise_pc : (s.raise k).pc = s.pc := rfl
@[simp] theorem raise_mem : (s.raise k).mem = s.mem := rfl
@[simp] theorem raise_run : (s.raise k).run = .halted := rfl
@[simp] theorem raise_report : (s.raise k).report = some ⟨k, s.pc, s.fetchWord⟩ := rfl
@[simp] theorem raise_params : (s.raise k).params = s.params := rfl
@[simp] theorem raise_readReg : (s.raise k).readReg r = s.readReg r := rfl

@[simp] theorem cleanHalt_x : s.cleanHalt.x = s.x := rfl
@[simp] theorem cleanHalt_pc : s.cleanHalt.pc = s.pc := rfl
@[simp] theorem cleanHalt_mem : s.cleanHalt.mem = s.mem := rfl
@[simp] theorem cleanHalt_run : s.cleanHalt.run = .halted := rfl
@[simp] theorem cleanHalt_report : s.cleanHalt.report = s.report := rfl
@[simp] theorem cleanHalt_params : s.cleanHalt.params = s.params := rfl
@[simp] theorem cleanHalt_readReg : s.cleanHalt.readReg r = s.readReg r := rfl

/-! ### the memory and pc update of a store -/

@[simp] theorem withMemPc_readReg (m : Memory) : ({ s with mem := m, pc := v } : State).readReg r = s.readReg r := rfl

/-! ### ofHook -/

@[simp] theorem ofHook_pc : (s.ofHook t).pc = t.pc := rfl
@[simp] theorem ofHook_mem : (s.ofHook t).mem = Memory.canonical t.mem := rfl
@[simp] theorem ofHook_run : (s.ofHook t).run = t.run := rfl
@[simp] theorem ofHook_params : (s.ofHook t).params = s.params := rfl
@[simp] theorem ofHook_slot_zero : (s.ofHook t).x[0] = 0#32 := by simp [State.ofHook]

@[simp] theorem ofHook_readReg : (s.ofHook t).readReg r = t.readReg r := by
  by_cases h : r = 0#5
  · subst h; rfl
  · have h0 : r.toNat ≠ 0 := fun h' => h (BitVec.eq_of_toNat_eq (by simpa using h'))
    rw [readReg_of_ne _ _ h, readReg_of_ne _ _ h]
    simp [State.ofHook, Ne.symm h0]

/-! ### placeWord -/

@[simp] theorem placeWord_x : (s.placeWord w).x = s.x := rfl
@[simp] theorem placeWord_pc : (s.placeWord w).pc = s.pc := rfl
@[simp] theorem placeWord_mem : (s.placeWord w).mem = Memory.wordWrite s.mem s.pc w := rfl
@[simp] theorem placeWord_run : (s.placeWord w).run = .running := rfl
@[simp] theorem placeWord_report : (s.placeWord w).report = none := rfl
@[simp] theorem placeWord_readReg : (s.placeWord w).readReg r = s.readReg r := rfl

/-- Of a machine that is ready to fetch, only memory changes. -/
theorem placeWord_of_ready (hr : s.run = .running) (hp : s.report = none) (hf : s.params.fetchAlign = .mask)
    (hh : s.params.haltPred = .never) : s.placeWord w = { s with mem := Memory.wordWrite s.mem s.pc w } := by
  obtain ⟨x, pc, mem, run, report, params⟩ := s
  obtain ⟨da, fa, fe, sh, hp'⟩ := params
  simp_all [State.placeWord]

/-! ### reset -/

@[simp] theorem reset_pc : State.reset.pc = Config.entryPc := rfl
@[simp] theorem reset_mem : State.reset.mem = [] := rfl
@[simp] theorem reset_run : State.reset.run = .running := rfl
@[simp] theorem reset_report : State.reset.report = none := rfl
@[simp] theorem reset_params : State.reset.params = Params.default := rfl
@[simp] theorem reset_readReg : State.reset.readReg r = 0#32 := by
  simp [State.readReg, State.reset]

/-- Reset is creation at `Config.entryPc` with no image (R331). -/
theorem create_reset : State.create Params.default Config.entryPc [] = .next State.reset := by
  simp [State.create, State.reset, Image.write]

end Sys2Proof.Machine
end

