-- ==== Sys2Proof/Laws/Exec.lean ====
section
/-! SUPPORT. One lemma for each shared operation that says once everything it can do; from them, what one instruction can
do (`exec_shape`) and what one step can do (`step_cases`). Later proofs cite these and do not unfold the machine. -/

namespace Sys2Proof.Machine

variable {s t : State} {n : Width} {rd rs1 rs2 r : RegIx} {imm v next : Word}

/-! ### finish -/

theorem finish_next : s.finish rd v next = .next t ↔ t = (s.writeReg rd v).setPc next := by
  simp [State.finish, eq_comm]

@[simp] theorem finish_readReg :
    ((s.writeReg rd v).setPc next).readReg r = if r = rd ∧ rd ≠ 0#5 then v else s.readReg r := by
  rw [setPc_readReg, readReg_writeReg]

/-! ### loads and stores -/

/-- A load either raises `UnalignedAccess` or writes rd and advances pc (R220). -/
theorem load_next {ext : Word → Word} : s.load n ext rd rs1 imm = .next t ↔
    (s.alignFault n (s.effAddr rs1 imm) = true ∧ t = s.raise .unalignedAccess) ∨
    (s.alignFault n (s.effAddr rs1 imm) = false ∧
      t = (s.writeReg rd (ext (Memory.memRead s.mem (s.effAddr rs1 imm) n))).setPc s.pcPlus4) := by
  unfold State.load
  cases h : s.alignFault n (s.effAddr rs1 imm) <;> simp [h, State.finish, eq_comm]

/-- A store either raises `UnalignedAccess` or writes the lane and advances pc (R240). -/
theorem store_next : s.store n rs1 rs2 imm = .next t ↔
    (s.alignFault n (s.effAddr rs1 imm) = true ∧ t = s.raise .unalignedAccess) ∨
    (s.alignFault n (s.effAddr rs1 imm) = false ∧
      t = { s with mem := Memory.memWrite s.mem (s.effAddr rs1 imm) n (s.readReg rs2), pc := s.pcPlus4 }) := by
  unfold State.store
  cases h : s.alignFault n (s.effAddr rs1 imm) <;> simp [h, eq_comm]

/-- A byte access is never misaligned (R69). -/
@[simp] theorem alignFault_byte (a : Word) : s.alignFault .byte a = false := by
  simp [State.alignFault, misaligned, Width.bytes, Nat.mod_one]

/-! ### branches -/

theorem branch_next {cond : Word → Word → Bool} : s.branch cond rs1 rs2 imm = .next t ↔
    (cond (s.readReg rs1) (s.readReg rs2) = true ∧ t = s.setPc (s.pcTarget imm)) ∨
    (cond (s.readReg rs1) (s.readReg rs2) = false ∧ t = s.setPc s.pcPlus4) := by
  unfold State.branch
  cases cond (s.readReg rs1) (s.readReg rs2) <;> simp [eq_comm]

/-! ### one instruction -/

/-- Everything an instruction can do to the state: write one register and pc; write the lane of one memory access and
advance pc; or raise `UnalignedAccess`. -/
inductive Shape (s t : State) : Prop where
  | register (rd : RegIx) (v next : Word) (h : t = (s.writeReg rd v).setPc next)
  | memory (a : Word) (n : Width) (v : Word)
      (h : t = { s with mem := Memory.memWrite s.mem a n v, pc := s.pcPlus4 })
  | failure (h : t = s.raise .unalignedAccess)

theorem finish_shape (h : s.finish rd v next = .next t) : Shape s t := .register _ _ _ (finish_next.mp h)

theorem branch_shape {cond : Word → Word → Bool} (h : s.branch cond rs1 rs2 imm = .next t) : Shape s t := by
  rcases branch_next.mp h with ⟨-, rfl⟩ | ⟨-, rfl⟩ <;> exact .register 0#5 0#32 _ rfl

theorem load_shape {ext : Word → Word} (h : s.load n ext rd rs1 imm = .next t) : Shape s t := by
  rcases load_next.mp h with ⟨-, h⟩ | ⟨-, h⟩
  · exact .failure h
  · exact .register _ _ _ h

theorem store_shape (h : s.store n rs1 rs2 imm = .next t) : Shape s t := by
  rcases store_next.mp h with ⟨-, h⟩ | ⟨-, h⟩
  · exact .failure h
  · exact .memory _ _ _ h

/-- What one instruction can do. -/
theorem exec_shape {i : Instr} (h : exec i s = .next t) : Shape s t := by
  cases i
  case beq | bne | blt | bge | bltu | bgeu => exact branch_shape h
  case lb | lh | lw | lbu | lhu => exact load_shape h
  case sb | sh | sw => exact store_shape h
  all_goals exact finish_shape h

/-! ### one step -/

/-- What one step can do: nothing but in a Running machine, and there either what comes before decode, or the execution of
the decoded word. -/
theorem step_cases (h : step s = .next t) : s.run = .running ∧
    (s.beforeDecode = some t ∨
      s.beforeDecode = none ∧
        ((∃ i, s.decodeFetched = .instr i ∧ exec i s = .next t) ∨
          ∃ k w, s.decodeFetched = .unknown k w ∧ t = s.raise (unknownError k))) := by
  unfold step at h
  cases hr : s.run <;> rw [hr] at h
  · refine ⟨rfl, ?_⟩
    cases hb : s.beforeDecode <;> simp only [hb] at h
    · refine .inr ⟨rfl, ?_⟩
      cases hd : s.decodeFetched <;> simp only [hd, execDecoded] at h
      · exact .inl ⟨_, rfl, h⟩
      · exact .inr ⟨_, _, rfl, (Host.Outcome.next.inj h).symm⟩
    · exact .inl (congrArg some (Host.Outcome.next.inj h))
  · simp at h

/-- What comes before decode: a clean halt, the failing fetch, or the environment's answer. -/
theorem beforeDecode_some (h : s.beforeDecode = some t) :
    (s.haltHolds = true ∧ t = s.cleanHalt) ∨
    (s.haltHolds = false ∧ s.fetchFault = true ∧ t = s.raise .unalignedAccess) ∨
    (s.haltHolds = false ∧ s.fetchFault = false ∧ s.hooks s.fetchWord = true ∧
      t = s.ofHook (Config.systemHook s s.fetchWord)) := by
  unfold State.beforeDecode at h
  split at h
  · exact .inl ⟨by assumption, (Option.some.inj h).symm⟩
  · split at h
    · exact .inr (.inl ⟨by simp_all, by assumption, (Option.some.inj h).symm⟩)
    · split at h
      · exact .inr (.inr ⟨by simp_all, by simp_all, by assumption, (Option.some.inj h).symm⟩)
      · simp at h

theorem beforeDecode_none : s.beforeDecode = none ↔
    s.haltHolds = false ∧ s.fetchFault = false ∧ s.hooks s.fetchWord = false := by
  unfold State.beforeDecode
  cases s.haltHolds <;> cases s.fetchFault <;> cases s.hooks s.fetchWord <;> simp

end Sys2Proof.Machine
end

