-- ==== Sys2Proof/Laws/PerInstr.lean ====
section
/-! SUPPORT. Statements made for every instruction, one lemma per constructor.

`Row`: the word of an instruction, whatever its operands, is a word of the instruction's own row of spec/opcode_table.json,
so an operand can never spill into the fixed bits. -/

namespace Sys2Proof.Laws

/-! ### The fixed bits of each layout -/

theorem and_ones7 (v : BitVec 7) : v &&& 127#7 = v := BitVec.and_allOnes

theorem and_ones3 (v : BitVec 3) : v &&& 7#3 = v := BitVec.and_allOnes

theorem encodeR_fixed (f7 : BitVec 7) (rs2 rs1 : RegIx) (f3 : BitVec 3) (rd : RegIx) (opc : BitVec 7) :
    encodeR f7 rs2 rs1 f3 rd opc &&& 0xFE00707F#32 = encodeR f7 0#5 0#5 f3 0#5 opc := by
  have hm : (0xFE00707F#32 : BitVec 32) = 127#7 ++ 0#5 ++ 0#5 ++ 7#3 ++ 0#5 ++ 127#7 := by decide
  rw [hm]
  change (f7 ++ rs2 ++ rs1 ++ f3 ++ rd ++ opc) &&& (_ : BitVec (7 + 5 + 5 + 3 + 5 + 7)) = _
  simp only [BitVec.and_append, and_ones7, and_ones3, BitVec.and_zero]
  rfl

theorem encodeI_fixed (imm : Word) (rs1 : RegIx) (f3 : BitVec 3) (rd : RegIx) (opc : BitVec 7) :
    encodeI imm rs1 f3 rd opc &&& 0x707F#32 = encodeI 0#32 0#5 f3 0#5 opc := by
  have hm : (0x707F#32 : BitVec 32) = 0#12 ++ 0#5 ++ 7#3 ++ 0#5 ++ 127#7 := by decide
  rw [hm]
  change (imm.extractLsb' 0 12 ++ rs1 ++ f3 ++ rd ++ opc) &&& (_ : BitVec (12 + 5 + 3 + 5 + 7)) = _
  simp only [BitVec.and_append, and_ones7, and_ones3, BitVec.and_zero]
  rfl

theorem encodeS_fixed (imm : Word) (rs2 rs1 : RegIx) (f3 : BitVec 3) (opc : BitVec 7) :
    encodeS imm rs2 rs1 f3 opc &&& 0x707F#32 = encodeS 0#32 0#5 0#5 f3 opc := by
  have hm : (0x707F#32 : BitVec 32) = 0#7 ++ 0#5 ++ 0#5 ++ 7#3 ++ 0#5 ++ 127#7 := by decide
  rw [hm]
  change (imm.extractLsb' 5 7 ++ rs2 ++ rs1 ++ f3 ++ imm.extractLsb' 0 5 ++ opc) &&& (_ : BitVec (7 + 5 + 5 + 3 + 5 + 7)) = _
  simp only [BitVec.and_append, and_ones7, and_ones3, BitVec.and_zero]
  rfl

theorem encodeB_fixed (imm : Word) (rs2 rs1 : RegIx) (f3 : BitVec 3) (opc : BitVec 7) :
    encodeB imm rs2 rs1 f3 opc &&& 0x707F#32 = encodeB 0#32 0#5 0#5 f3 opc := by
  have hm : (0x707F#32 : BitVec 32) = 0#1 ++ 0#6 ++ 0#5 ++ 0#5 ++ 7#3 ++ 0#4 ++ 0#1 ++ 127#7 := by decide
  rw [hm]
  change (imm.extractLsb' 12 1 ++ imm.extractLsb' 5 6 ++ rs2 ++ rs1 ++ f3 ++ imm.extractLsb' 1 4 ++ imm.extractLsb' 11 1 ++ opc) &&& (_ : BitVec (1 + 6 + 5 + 5 + 3 + 4 + 1 + 7)) = _
  simp only [BitVec.and_append, and_ones7, and_ones3, BitVec.and_zero]
  rfl

theorem encodeU_fixed (imm : Word) (rd : RegIx) (opc : BitVec 7) :
    encodeU imm rd opc &&& 0x7F#32 = encodeU 0#32 0#5 opc := by
  have hm : (0x7F#32 : BitVec 32) = 0#20 ++ 0#5 ++ 127#7 := by decide
  rw [hm]
  change (imm.extractLsb' 12 20 ++ rd ++ opc) &&& (_ : BitVec (20 + 5 + 7)) = _
  simp only [BitVec.and_append, and_ones7, BitVec.and_zero]
  rfl

theorem encodeJ_fixed (imm : Word) (rd : RegIx) (opc : BitVec 7) :
    encodeJ imm rd opc &&& 0x7F#32 = encodeJ 0#32 0#5 opc := by
  have hm : (0x7F#32 : BitVec 32) = 0#1 ++ 0#10 ++ 0#1 ++ 0#8 ++ 0#5 ++ 127#7 := by decide
  rw [hm]
  change (imm.extractLsb' 20 1 ++ imm.extractLsb' 1 10 ++ imm.extractLsb' 11 1 ++ imm.extractLsb' 12 8 ++ rd ++ opc) &&& (_ : BitVec (1 + 10 + 1 + 8 + 5 + 7)) = _
  simp only [BitVec.and_append, and_ones7, BitVec.and_zero]
  rfl

/-! ### Row -/

/-- The instruction's word is a word of its own row of the opcode table. -/
def Row.Statement (i : Instr) : Prop :=
  ∃ row ∈ opcodeTable, row.mnemonic = i.mnemonic ∧ encode i &&& row.mask = row.bits

/-- The row of a word whose fixed bits are known. -/
theorem row_of_fixed {i : Instr} (row : OpcodeRow) {fixed : Word} (h : encode i &&& row.mask = fixed)
    (hrow : row ∈ opcodeTable) (hname : row.mnemonic = i.mnemonic) (hb : fixed = row.bits) : Row.Statement i :=
  ⟨row, hrow, hname, h.trans hb⟩

theorem Row.add (rd rs1 rs2 : RegIx) : Row.Statement (.add rd rs1 rs2) :=
  row_of_fixed ⟨"add", 0xFE00707F#32, 0x00000033#32⟩ (encodeR_fixed _ _ _ _ _ _) (by decide) rfl (by decide)

theorem Row.sub (rd rs1 rs2 : RegIx) : Row.Statement (.sub rd rs1 rs2) :=
  row_of_fixed ⟨"sub", 0xFE00707F#32, 0x40000033#32⟩ (encodeR_fixed _ _ _ _ _ _) (by decide) rfl (by decide)

theorem Row.sll (rd rs1 rs2 : RegIx) : Row.Statement (.sll rd rs1 rs2) :=
  row_of_fixed ⟨"sll", 0xFE00707F#32, 0x00001033#32⟩ (encodeR_fixed _ _ _ _ _ _) (by decide) rfl (by decide)

theorem Row.slt (rd rs1 rs2 : RegIx) : Row.Statement (.slt rd rs1 rs2) :=
  row_of_fixed ⟨"slt", 0xFE00707F#32, 0x00002033#32⟩ (encodeR_fixed _ _ _ _ _ _) (by decide) rfl (by decide)

theorem Row.sltu (rd rs1 rs2 : RegIx) : Row.Statement (.sltu rd rs1 rs2) :=
  row_of_fixed ⟨"sltu", 0xFE00707F#32, 0x00003033#32⟩ (encodeR_fixed _ _ _ _ _ _) (by decide) rfl (by decide)

theorem Row.xor (rd rs1 rs2 : RegIx) : Row.Statement (.xor rd rs1 rs2) :=
  row_of_fixed ⟨"xor", 0xFE00707F#32, 0x00004033#32⟩ (encodeR_fixed _ _ _ _ _ _) (by decide) rfl (by decide)

theorem Row.srl (rd rs1 rs2 : RegIx) : Row.Statement (.srl rd rs1 rs2) :=
  row_of_fixed ⟨"srl", 0xFE00707F#32, 0x00005033#32⟩ (encodeR_fixed _ _ _ _ _ _) (by decide) rfl (by decide)

theorem Row.sra (rd rs1 rs2 : RegIx) : Row.Statement (.sra rd rs1 rs2) :=
  row_of_fixed ⟨"sra", 0xFE00707F#32, 0x40005033#32⟩ (encodeR_fixed _ _ _ _ _ _) (by decide) rfl (by decide)

theorem Row.or (rd rs1 rs2 : RegIx) : Row.Statement (.or rd rs1 rs2) :=
  row_of_fixed ⟨"or", 0xFE00707F#32, 0x00006033#32⟩ (encodeR_fixed _ _ _ _ _ _) (by decide) rfl (by decide)

theorem Row.and (rd rs1 rs2 : RegIx) : Row.Statement (.and rd rs1 rs2) :=
  row_of_fixed ⟨"and", 0xFE00707F#32, 0x00007033#32⟩ (encodeR_fixed _ _ _ _ _ _) (by decide) rfl (by decide)

theorem Row.addi (rd rs1 : RegIx) (imm : Word) : Row.Statement (.addi rd rs1 imm) :=
  row_of_fixed ⟨"addi", 0x0000707F#32, 0x00000013#32⟩ (encodeI_fixed _ _ _ _ _) (by decide) rfl (by decide)

theorem Row.slti (rd rs1 : RegIx) (imm : Word) : Row.Statement (.slti rd rs1 imm) :=
  row_of_fixed ⟨"slti", 0x0000707F#32, 0x00002013#32⟩ (encodeI_fixed _ _ _ _ _) (by decide) rfl (by decide)

theorem Row.sltiu (rd rs1 : RegIx) (imm : Word) : Row.Statement (.sltiu rd rs1 imm) :=
  row_of_fixed ⟨"sltiu", 0x0000707F#32, 0x00003013#32⟩ (encodeI_fixed _ _ _ _ _) (by decide) rfl (by decide)

theorem Row.xori (rd rs1 : RegIx) (imm : Word) : Row.Statement (.xori rd rs1 imm) :=
  row_of_fixed ⟨"xori", 0x0000707F#32, 0x00004013#32⟩ (encodeI_fixed _ _ _ _ _) (by decide) rfl (by decide)

theorem Row.ori (rd rs1 : RegIx) (imm : Word) : Row.Statement (.ori rd rs1 imm) :=
  row_of_fixed ⟨"ori", 0x0000707F#32, 0x00006013#32⟩ (encodeI_fixed _ _ _ _ _) (by decide) rfl (by decide)

theorem Row.andi (rd rs1 : RegIx) (imm : Word) : Row.Statement (.andi rd rs1 imm) :=
  row_of_fixed ⟨"andi", 0x0000707F#32, 0x00007013#32⟩ (encodeI_fixed _ _ _ _ _) (by decide) rfl (by decide)

theorem Row.slli (rd rs1 : RegIx) (shamt : BitVec 5) : Row.Statement (.slli rd rs1 shamt) :=
  row_of_fixed ⟨"slli", 0xFE00707F#32, 0x00001013#32⟩ (encodeR_fixed _ _ _ _ _ _) (by decide) rfl (by decide)

theorem Row.srli (rd rs1 : RegIx) (shamt : BitVec 5) : Row.Statement (.srli rd rs1 shamt) :=
  row_of_fixed ⟨"srli", 0xFE00707F#32, 0x00005013#32⟩ (encodeR_fixed _ _ _ _ _ _) (by decide) rfl (by decide)

theorem Row.srai (rd rs1 : RegIx) (shamt : BitVec 5) : Row.Statement (.srai rd rs1 shamt) :=
  row_of_fixed ⟨"srai", 0xFE00707F#32, 0x40005013#32⟩ (encodeR_fixed _ _ _ _ _ _) (by decide) rfl (by decide)

theorem Row.lb (rd rs1 : RegIx) (imm : Word) : Row.Statement (.lb rd rs1 imm) :=
  row_of_fixed ⟨"lb", 0x0000707F#32, 0x00000003#32⟩ (encodeI_fixed _ _ _ _ _) (by decide) rfl (by decide)

theorem Row.lh (rd rs1 : RegIx) (imm : Word) : Row.Statement (.lh rd rs1 imm) :=
  row_of_fixed ⟨"lh", 0x0000707F#32, 0x00001003#32⟩ (encodeI_fixed _ _ _ _ _) (by decide) rfl (by decide)

theorem Row.lw (rd rs1 : RegIx) (imm : Word) : Row.Statement (.lw rd rs1 imm) :=
  row_of_fixed ⟨"lw", 0x0000707F#32, 0x00002003#32⟩ (encodeI_fixed _ _ _ _ _) (by decide) rfl (by decide)

theorem Row.lbu (rd rs1 : RegIx) (imm : Word) : Row.Statement (.lbu rd rs1 imm) :=
  row_of_fixed ⟨"lbu", 0x0000707F#32, 0x00004003#32⟩ (encodeI_fixed _ _ _ _ _) (by decide) rfl (by decide)

theorem Row.lhu (rd rs1 : RegIx) (imm : Word) : Row.Statement (.lhu rd rs1 imm) :=
  row_of_fixed ⟨"lhu", 0x0000707F#32, 0x00005003#32⟩ (encodeI_fixed _ _ _ _ _) (by decide) rfl (by decide)

theorem Row.sb (rs1 rs2 : RegIx) (imm : Word) : Row.Statement (.sb rs1 rs2 imm) :=
  row_of_fixed ⟨"sb", 0x0000707F#32, 0x00000023#32⟩ (encodeS_fixed _ _ _ _ _) (by decide) rfl (by decide)

theorem Row.sh (rs1 rs2 : RegIx) (imm : Word) : Row.Statement (.sh rs1 rs2 imm) :=
  row_of_fixed ⟨"sh", 0x0000707F#32, 0x00001023#32⟩ (encodeS_fixed _ _ _ _ _) (by decide) rfl (by decide)

theorem Row.sw (rs1 rs2 : RegIx) (imm : Word) : Row.Statement (.sw rs1 rs2 imm) :=
  row_of_fixed ⟨"sw", 0x0000707F#32, 0x00002023#32⟩ (encodeS_fixed _ _ _ _ _) (by decide) rfl (by decide)

theorem Row.beq (rs1 rs2 : RegIx) (imm : Word) : Row.Statement (.beq rs1 rs2 imm) :=
  row_of_fixed ⟨"beq", 0x0000707F#32, 0x00000063#32⟩ (encodeB_fixed _ _ _ _ _) (by decide) rfl (by decide)

theorem Row.bne (rs1 rs2 : RegIx) (imm : Word) : Row.Statement (.bne rs1 rs2 imm) :=
  row_of_fixed ⟨"bne", 0x0000707F#32, 0x00001063#32⟩ (encodeB_fixed _ _ _ _ _) (by decide) rfl (by decide)

theorem Row.blt (rs1 rs2 : RegIx) (imm : Word) : Row.Statement (.blt rs1 rs2 imm) :=
  row_of_fixed ⟨"blt", 0x0000707F#32, 0x00004063#32⟩ (encodeB_fixed _ _ _ _ _) (by decide) rfl (by decide)

theorem Row.bge (rs1 rs2 : RegIx) (imm : Word) : Row.Statement (.bge rs1 rs2 imm) :=
  row_of_fixed ⟨"bge", 0x0000707F#32, 0x00005063#32⟩ (encodeB_fixed _ _ _ _ _) (by decide) rfl (by decide)

theorem Row.bltu (rs1 rs2 : RegIx) (imm : Word) : Row.Statement (.bltu rs1 rs2 imm) :=
  row_of_fixed ⟨"bltu", 0x0000707F#32, 0x00006063#32⟩ (encodeB_fixed _ _ _ _ _) (by decide) rfl (by decide)

theorem Row.bgeu (rs1 rs2 : RegIx) (imm : Word) : Row.Statement (.bgeu rs1 rs2 imm) :=
  row_of_fixed ⟨"bgeu", 0x0000707F#32, 0x00007063#32⟩ (encodeB_fixed _ _ _ _ _) (by decide) rfl (by decide)

theorem Row.jal (rd : RegIx) (imm : Word) : Row.Statement (.jal rd imm) :=
  row_of_fixed ⟨"jal", 0x0000007F#32, 0x0000006F#32⟩ (encodeJ_fixed _ _ _) (by decide) rfl (by decide)

theorem Row.jalr (rd rs1 : RegIx) (imm : Word) : Row.Statement (.jalr rd rs1 imm) :=
  row_of_fixed ⟨"jalr", 0x0000707F#32, 0x00000067#32⟩ (encodeI_fixed _ _ _ _ _) (by decide) rfl (by decide)

theorem Row.lui (rd : RegIx) (imm : Word) : Row.Statement (.lui rd imm) :=
  row_of_fixed ⟨"lui", 0x0000007F#32, 0x00000037#32⟩ (encodeU_fixed _ _ _) (by decide) rfl (by decide)

theorem Row.auipc (rd : RegIx) (imm : Word) : Row.Statement (.auipc rd imm) :=
  row_of_fixed ⟨"auipc", 0x0000007F#32, 0x00000017#32⟩ (encodeU_fixed _ _ _) (by decide) rfl (by decide)

end Sys2Proof.Laws
end

