-- ==== Sys2Proof/Tests/Slice0.lean ====
section
/-! SUPPORT. The model's own tests. Expected results come from the spec: the examples of its rules and the vectors of
spec/95_test_vectors.md (named at each test). Then one witness for the hypotheses of each statement. -/

namespace Sys2Proof.Tests

open Sys2Proof.Machine Sys2Proof.Spec

/-! ### WellFormed: an ill-formed term for each check, refused -/

theorem test_illformed_imm12_high : (Instr.addi 1#5 1#5 2048#32).wellFormed = false := by decide
theorem test_illformed_imm12_low : (Instr.lw 1#5 1#5 (BitVec.ofInt 32 (-2049))).wellFormed = false := by decide
theorem test_illformed_imm12_store : (Instr.sb 1#5 1#5 2048#32).wellFormed = false := by decide
theorem test_illformed_imm13_odd : (Instr.beq 1#5 1#5 3#32).wellFormed = false := by decide
theorem test_illformed_imm13_range : (Instr.bgeu 1#5 1#5 4096#32).wellFormed = false := by decide
theorem test_illformed_imm21_odd : (Instr.jal 1#5 1#32).wellFormed = false := by decide
theorem test_illformed_imm21_range : (Instr.jal 1#5 1048576#32).wellFormed = false := by decide
theorem test_illformed_immU_low : (Instr.lui 1#5 1#32).wellFormed = false := by decide
theorem test_wellformed_boundaries :
    (Instr.addi 1#5 1#5 2047#32).wellFormed = true ∧ (Instr.jalr 1#5 1#5 (BitVec.ofInt 32 (-2048))).wellFormed = true ∧
    (Instr.sw 1#5 1#5 (BitVec.ofInt 32 (-2048))).wellFormed = true ∧ (Instr.blt 1#5 1#5 4094#32).wellFormed = true ∧
    (Instr.bne 1#5 1#5 (BitVec.ofInt 32 (-4096))).wellFormed = true ∧ (Instr.jal 1#5 1048574#32).wellFormed = true ∧
    (Instr.jal 1#5 (BitVec.ofInt 32 (-1048576))).wellFormed = true ∧ (Instr.auipc 1#5 0xFFFFF000#32).wellFormed = true := by
  decide

/-! ### Decoding: a word of every constructor, written out bit by bit from R101 and R108 -/

/-- The instruction a word decodes to. -/
def instrOf (w : Word) : Option Instr :=
  match decode .unknown w with
  | .instr i => some i
  | .unknown _ _ => none

theorem test_decode_register_register :
    instrOf 0b0000000_00010_00001_000_00011_0110011#32 = some (.add 3#5 1#5 2#5) ∧
    instrOf 0b0100000_00010_00001_000_00011_0110011#32 = some (.sub 3#5 1#5 2#5) ∧
    instrOf 0b0000000_00010_00001_001_00011_0110011#32 = some (.sll 3#5 1#5 2#5) ∧
    instrOf 0b0000000_00010_00001_010_00011_0110011#32 = some (.slt 3#5 1#5 2#5) ∧
    instrOf 0b0000000_00010_00001_011_00011_0110011#32 = some (.sltu 3#5 1#5 2#5) ∧
    instrOf 0b0000000_00010_00001_100_00011_0110011#32 = some (.xor 3#5 1#5 2#5) ∧
    instrOf 0b0000000_00010_00001_101_00011_0110011#32 = some (.srl 3#5 1#5 2#5) ∧
    instrOf 0b0100000_00010_00001_101_00011_0110011#32 = some (.sra 3#5 1#5 2#5) ∧
    instrOf 0b0000000_00010_00001_110_00011_0110011#32 = some (.or 3#5 1#5 2#5) ∧
    instrOf 0b0000000_00010_00001_111_00011_0110011#32 = some (.and 3#5 1#5 2#5) := by
  decide

theorem test_decode_register_immediate :
    instrOf 0b111111100000_00001_000_00011_0010011#32 = some (.addi 3#5 1#5 0xFFFFFFE0#32) ∧
    instrOf 0b111111100000_00001_010_00011_0010011#32 = some (.slti 3#5 1#5 0xFFFFFFE0#32) ∧
    instrOf 0b111111100000_00001_011_00011_0010011#32 = some (.sltiu 3#5 1#5 0xFFFFFFE0#32) ∧
    instrOf 0b111111100000_00001_100_00011_0010011#32 = some (.xori 3#5 1#5 0xFFFFFFE0#32) ∧
    instrOf 0b111111100000_00001_110_00011_0010011#32 = some (.ori 3#5 1#5 0xFFFFFFE0#32) ∧
    instrOf 0b111111100000_00001_111_00011_0010011#32 = some (.andi 3#5 1#5 0xFFFFFFE0#32) ∧
    instrOf 0b0000000_11110_00001_001_00011_0010011#32 = some (.slli 3#5 1#5 30#5) ∧
    instrOf 0b0000000_11110_00001_101_00011_0010011#32 = some (.srli 3#5 1#5 30#5) ∧
    instrOf 0b0100000_11110_00001_101_00011_0010011#32 = some (.srai 3#5 1#5 30#5) := by
  decide

theorem test_decode_loads :
    instrOf 0b000000000011_00010_000_00101_0000011#32 = some (.lb 5#5 2#5 3#32) ∧
    instrOf 0b000000000011_00010_001_00101_0000011#32 = some (.lh 5#5 2#5 3#32) ∧
    instrOf 0b000000000011_00010_010_00101_0000011#32 = some (.lw 5#5 2#5 3#32) ∧
    instrOf 0b000000000011_00010_100_00101_0000011#32 = some (.lbu 5#5 2#5 3#32) ∧
    instrOf 0b000000000011_00010_101_00101_0000011#32 = some (.lhu 5#5 2#5 3#32) := by
  decide

theorem test_decode_stores :
    instrOf 0b0000001_00110_00010_000_00001_0100011#32 = some (.sb 2#5 6#5 33#32) ∧
    instrOf 0b0000001_00110_00010_001_00001_0100011#32 = some (.sh 2#5 6#5 33#32) ∧
    instrOf 0b0000001_00110_00010_010_00001_0100011#32 = some (.sw 2#5 6#5 33#32) := by
  decide

theorem test_decode_branches :
    instrOf 0b0_000001_00010_00001_000_0001_1_1100011#32 = some (.beq 1#5 2#5 2082#32) ∧
    instrOf 0b0_000001_00010_00001_001_0001_1_1100011#32 = some (.bne 1#5 2#5 2082#32) ∧
    instrOf 0b0_000001_00010_00001_100_0001_1_1100011#32 = some (.blt 1#5 2#5 2082#32) ∧
    instrOf 0b0_000001_00010_00001_101_0001_1_1100011#32 = some (.bge 1#5 2#5 2082#32) ∧
    instrOf 0b0_000001_00010_00001_110_0001_1_1100011#32 = some (.bltu 1#5 2#5 2082#32) ∧
    instrOf 0b0_000001_00010_00001_111_0001_1_1100011#32 = some (.bgeu 1#5 2#5 2082#32) := by
  decide

theorem test_decode_jumps :
    instrOf 0b1_0000000001_1_00000001_00001_1101111#32 = some (.jal 1#5 (BitVec.ofInt 32 (-1048576 + 4096 + 2048 + 2))) ∧
    instrOf 0b100000000001_00101_000_00001_1100111#32 = some (.jalr 1#5 5#5 (BitVec.ofInt 32 (-2047))) := by
  decide

theorem test_decode_upper_immediate :
    instrOf 0b10000000000000000001_00001_0110111#32 = some (.lui 1#5 0x80001000#32) ∧
    instrOf 0b00010010001101000101_00001_0010111#32 = some (.auipc 1#5 0x12345000#32) := by
  decide

/-- 95_test_vectors.md L2.1, the immediates. -/
theorem test_decode_immediate_vectors :
    instrOf 0x7FF00013#32 = some (.addi 0#5 0#5 0x7FF#32) ∧ instrOf 0x80000013#32 = some (.addi 0#5 0#5 0xFFFFF800#32) ∧
    instrOf 0x80000023#32 = some (.sb 0#5 0#5 0xFFFFF800#32) ∧ instrOf 0xFE000FA3#32 = some (.sb 0#5 0#5 0xFFFFFFFF#32) ∧
    instrOf 0x00000FA3#32 = some (.sb 0#5 0#5 0x1F#32) ∧ instrOf 0x80000063#32 = some (.beq 0#5 0#5 0xFFFFF000#32) ∧
    instrOf 0x7E000FE3#32 = some (.beq 0#5 0#5 0xFFE#32) ∧ instrOf 0x00000F63#32 = some (.beq 0#5 0#5 0x1E#32) ∧
    instrOf 0x000000E3#32 = some (.beq 0#5 0#5 0x800#32) ∧ instrOf 0x800000EF#32 = some (.jal 1#5 0xFFF00000#32) ∧
    instrOf 0x7FFFF0EF#32 = some (.jal 1#5 0xFFFFE#32) ∧ instrOf 0x001000EF#32 = some (.jal 1#5 0x800#32) ∧
    instrOf 0x000100EF#32 = some (.jal 1#5 0x10000#32) := by
  decide

/-- What the decoder refuses a word with. -/
def refusalOf (p : FencePolicy) (w : Word) : Option UnknownKind :=
  match decode p w with
  | .instr _ => none
  | .unknown k _ => some k

/-- 95_test_vectors.md L2.1, the refused words. -/
theorem test_decode_unknown_vectors :
    refusalOf .unknown 0x00000000#32 = some .opcode ∧ refusalOf .unknown 0xFFFFFFFF#32 = some .opcode ∧
    refusalOf .unknown 0x00000001#32 = some .opcode ∧ refusalOf .unknown 0x0000000B#32 = some .opcode ∧
    refusalOf .unknown 0x0000000F#32 = some .opcode ∧ refusalOf .unknown 0x0FF0000F#32 = some .opcode ∧
    refusalOf .unknown 0x0000100F#32 = some .opcode ∧ refusalOf .unknown 0x0000200F#32 = some .opcode ∧
    refusalOf .unknown 0x00000073#32 = some .opcode ∧ refusalOf .unknown 0x00100073#32 = some .opcode ∧
    refusalOf .unknown 0x00001073#32 = some .opcode ∧
    refusalOf .unknown 0x02208133#32 = some .functionCode ∧ refusalOf .unknown 0x402091B3#32 = some .functionCode ∧
    refusalOf .unknown 0x41F09193#32 = some .functionCode ∧ refusalOf .unknown 0x0000B283#32 = some .functionCode ∧
    refusalOf .unknown 0x0000B023#32 = some .functionCode ∧ refusalOf .unknown 0x0000A063#32 = some .functionCode ∧
    refusalOf .unknown 0x000010E7#32 = some .functionCode := by
  decide

/-- 95_test_vectors.md L2.1, `FENCE_POLICY = nop`. -/
theorem test_decode_fence_nop :
    decode .nop 0x0000000F#32 = .instr (.addi 0#5 0#5 0#32) ∧ decode .nop 0x0FF0000F#32 = .instr (.addi 0#5 0#5 0#32) ∧
    decode .nop 0x0000100F#32 = .instr (.addi 0#5 0#5 0#32) ∧ refusalOf .nop 0x0000200F#32 = some .functionCode := by
  decide

/-- No word is of two rows of the opcode table: two rows differ in a bit both fix. -/
theorem test_rows_disjoint :
    List.Pairwise (fun r q : OpcodeRow => r.bits &&& (r.mask &&& q.mask) ≠ q.bits &&& (r.mask &&& q.mask)) opcodeTable := by
  decide

theorem test_decodeTableWord :
    decodeTableWord 32 0x40005013 = some (.srai 0#5 0#5 0#5) ∧ decodeTableWord 32 0x67 = some (.jalr 0#5 0#5 0#32) ∧
    decodeTableWord 32 0 = none := by
  decide

/-! ### Assembler syntax and pseudo-instructions (R34, R119, R120) -/

/-- The examples of R119's table. -/
theorem test_asm_text :
    (Instr.add 3#5 1#5 2#5).asm = "add x3, x1, x2" ∧ (Instr.addi 2#5 2#5 0xFFFFFFE0#32).asm = "addi x2, x2, -32" ∧
    (Instr.lw 5#5 2#5 8#32).asm = "lw x5, 8(x2)" ∧ (Instr.sw 2#5 5#5 8#32).asm = "sw x5, 8(x2)" ∧
    (Instr.beq 1#5 2#5 8#32).asm = "beq x1, x2, 8" ∧ (Instr.lui 1#5 0x12345000#32).asm = "lui x1, 0x12345" ∧
    (Instr.jal 1#5 16#32).asm = "jal x1, 16" ∧ (Instr.jalr 0#5 1#5 0#32).asm = "jalr x0, 0(x1)" := by
  decide
/-- R34 -/
theorem test_abi_names :
    abiName 2#5 = "sp" ∧ abiName 31#5 = "t6" ∧ regOfAbiName "fp" = some 8#5 ∧ regOfAbiName "a0" = some 10#5 ∧
    regOfAbiName "x99" = none := by decide
/-- R120: the split of a value whose bit 11 is set. -/
theorem test_li_split :
    (Pseudo.li 1#5 0xDEADBEEF#32).expand = [.lui 1#5 0xDEADC000#32, .addi 1#5 1#5 0xFFFFFEEF#32] := by decide

/-! ### Instructions: the examples of the rules, each one step from a word in memory -/

/-- The next state of an outcome, if it is one. -/
def nextOf : Result → Option State
  | .next s => some s
  | .fault _ => none
  | .refused _ => none

/-- A machine at pc with these registers and memory words, all else as at reset. -/
def machine (pc : Word) (regs words : List (Word × Word)) : State :=
  let s := regs.foldl (fun s e => s.writeReg (BitVec.ofNat 5 e.1.toNat) e.2) State.reset
  { s with pc := pc, mem := words.foldl (fun m e => Memory.wordWrite m e.1 e.2) [] }

/-- One step at pc 0x1000 of the word `w`. -/
def run (w : Word) (regs words : List (Word × Word)) : Option State :=
  nextOf (step (machine 0x1000#32 regs ((0x1000#32, w) :: words)))

/-- A register and pc afterwards. -/
def reg (r : RegIx) (o : Option State) : Option (Word × Word) := o.map fun t => (t.readReg r, t.pc)

/-- A memory word and pc afterwards. -/
def word (a : Word) (o : Option State) : Option (Word × Word) := o.map fun t => (Memory.wordRead t.mem a, t.pc)

/-- The failure record and pc afterwards. -/
def report (o : Option State) : Option (Option Report × Word) := o.map fun t => (t.report, t.pc)

/-- The same machine under `DATA_ALIGN_POLICY = mask`. -/
def masked (s : State) : State := { s with params := { s.params with dataAlign := .mask } }

/-- The data words of the examples. -/
def dataWords : List (Word × Word) := [(0x2000#32, 0x8899AABB#32), (0x2004#32, 0x11223344#32)]

/-- R181 -/
theorem test_add : reg 3#5 (run 0x002081B3#32 [(1#32, 5#32), (2#32, 7#32)] []) = some (0xC#32, 0x1004#32) := by decide
/-- R182 -/
theorem test_sub : reg 3#5 (run 0x402081B3#32 [(1#32, 5#32), (2#32, 7#32)] []) = some (0xFFFFFFFE#32, 0x1004#32) := by decide
/-- R183 -/
theorem test_sll : reg 3#5 (run 0x002091B3#32 [(1#32, 1#32), (2#32, 0x21#32)] []) = some (2#32, 0x1004#32) := by decide
/-- R184 -/
theorem test_slt : reg 3#5 (run 0x0020A1B3#32 [(1#32, 0xFFFFFFFF#32), (2#32, 1#32)] []) = some (1#32, 0x1004#32) := by decide
/-- R185 -/
theorem test_sltu : reg 3#5 (run 0x0020B1B3#32 [(1#32, 0xFFFFFFFF#32), (2#32, 1#32)] []) = some (0#32, 0x1004#32) := by decide
/-- R186 -/
theorem test_xor : reg 3#5 (run 0x0020C1B3#32 [(1#32, 0xF0F0#32), (2#32, 0xFF00#32)] []) = some (0xFF0#32, 0x1004#32) := by decide
/-- R187 -/
theorem test_srl : reg 3#5 (run 0x0020D1B3#32 [(1#32, 0x80000000#32), (2#32, 4#32)] []) = some (0x08000000#32, 0x1004#32) := by decide
/-- R188 -/
theorem test_sra : reg 3#5 (run 0x4020D1B3#32 [(1#32, 0x80000000#32), (2#32, 4#32)] []) = some (0xF8000000#32, 0x1004#32) := by decide
/-- L2.2 -/
theorem test_sra_31 : reg 3#5 (run 0x4020D1B3#32 [(1#32, 0x80000000#32), (2#32, 0xFFFFFFFF#32)] []) = some (0xFFFFFFFF#32, 0x1004#32) := by decide
/-- R189 -/
theorem test_or : reg 3#5 (run 0x0020E1B3#32 [(1#32, 0xF0#32), (2#32, 0x0F#32)] []) = some (0xFF#32, 0x1004#32) := by decide
/-- R190 -/
theorem test_and : reg 3#5 (run 0x0020F1B3#32 [(1#32, 0xF0#32), (2#32, 0x3C#32)] []) = some (0x30#32, 0x1004#32) := by decide
/-- L2.2 -/
theorem test_add_wraps : reg 3#5 (run 0x002081B3#32 [(1#32, 0x7FFFFFFF#32), (2#32, 1#32)] []) = some (0x80000000#32, 0x1004#32) := by decide
/-- L1-5 at pc 0x1000 -/
theorem test_addi : reg 2#5 (run 0xfe010113#32 [] []) = some (0xFFFFFFE0#32, 0x1004#32) := by decide
/-- R202 -/
theorem test_slti : reg 3#5 (run 0xFFF0A193#32 [(1#32, 0xFFFFFFFE#32)] []) = some (1#32, 0x1004#32) := by decide
/-- R203 -/
theorem test_sltiu : reg 3#5 (run 0xFFF0B193#32 [(1#32, 5#32)] []) = some (1#32, 0x1004#32) := by decide
/-- R204 -/
theorem test_xori : reg 3#5 (run 0xFFF0C193#32 [(1#32, 0x12345678#32)] []) = some (0xEDCBA987#32, 0x1004#32) := by decide
/-- R205 -/
theorem test_ori : reg 3#5 (run 0x7FF0E193#32 [(1#32, 0x1000#32)] []) = some (0x17FF#32, 0x1004#32) := by decide
/-- R206 -/
theorem test_andi : reg 3#5 (run 0xFF00F193#32 [(1#32, 0x1234567F#32)] []) = some (0x12345670#32, 0x1004#32) := by decide
/-- R207 -/
theorem test_slli : reg 3#5 (run 0x01F09193#32 [(1#32, 3#32)] []) = some (0x80000000#32, 0x1004#32) := by decide
/-- R208 -/
theorem test_srli : reg 3#5 (run 0x01F0D193#32 [(1#32, 0x80000000#32)] []) = some (1#32, 0x1004#32) := by decide
/-- R209 -/
theorem test_srai : reg 3#5 (run 0x41F0D193#32 [(1#32, 0x80000000#32)] []) = some (0xFFFFFFFF#32, 0x1004#32) := by decide
/-- L2.3 -/
theorem test_srai_0 : reg 3#5 (run 0x4000D193#32 [(1#32, 0x80000000#32)] []) = some (0x80000000#32, 0x1004#32) := by decide
/-- R221 -/
theorem test_lb : reg 5#5 (run 0x00310283#32 [(2#32, 0x2000#32)] dataWords) = some (0xFFFFFF88#32, 0x1004#32) := by decide
/-- R222 -/
theorem test_lh : reg 5#5 (run 0x00211283#32 [(2#32, 0x2000#32)] dataWords) = some (0xFFFF8899#32, 0x1004#32) := by decide
/-- R223 -/
theorem test_lw : reg 5#5 (run 0x00412283#32 [(2#32, 0x2000#32)] dataWords) = some (0x11223344#32, 0x1004#32) := by decide
/-- R224 -/
theorem test_lbu : reg 5#5 (run 0x00314283#32 [(2#32, 0x2000#32)] dataWords) = some (0x88#32, 0x1004#32) := by decide
/-- R225 -/
theorem test_lhu : reg 5#5 (run 0x00215283#32 [(2#32, 0x2000#32)] dataWords) = some (0x8899#32, 0x1004#32) := by decide
/-- L2.4, the address wraps; rd = rs1 -/
theorem test_lw_top_and_rd_is_rs1 :
    reg 1#5 (run 0xFFC02083#32 [] [(0xFFFFFFFC#32, 0xDEADBEEF#32)]) = some (0xDEADBEEF#32, 0x1004#32) ∧
    reg 2#5 (run 0x00012103#32 [(2#32, 0x2000#32)] [(0x2000#32, 0xABCDEF01#32)]) = some (0xABCDEF01#32, 0x1004#32) := by decide
/-- R241 -/
theorem test_sb : word 0x2000#32 (run 0x006100A3#32 [(2#32, 0x2000#32), (6#32, 0xCAFEBABE#32)] dataWords) = some (0x8899BEBB#32, 0x1004#32) := by decide
/-- R241 -/
theorem test_sb_next_word : word 0x2004#32 (run 0x006103A3#32 [(2#32, 0x2000#32), (6#32, 0xCAFEBABE#32)] dataWords) = some (0xBE223344#32, 0x1004#32) := by decide
/-- R242 -/
theorem test_sh : word 0x2000#32 (run 0x00611123#32 [(2#32, 0x2000#32), (6#32, 0xCAFEBABE#32)] dataWords) = some (0xBABEAABB#32, 0x1004#32) := by decide
/-- R243 -/
theorem test_sw : word 0x2000#32 (run 0x00612023#32 [(2#32, 0x2000#32), (6#32, 0xCAFEBABE#32)] dataWords) = some (0xCAFEBABE#32, 0x1004#32) := by decide
/-- L2.5 -/
theorem test_sw_own_address : word 0x1000#32 (run 0x0010A023#32 [(1#32, 0x1000#32)] []) = some (0x1000#32, 0x1004#32) := by decide
/-- R261 -/
theorem test_beq_taken : reg 0#5 (run 0x00208463#32 [(1#32, 3#32), (2#32, 3#32)] []) = some (0#32, 0x1008#32) := by decide
/-- R261 -/
theorem test_beq_not_taken : reg 0#5 (run 0x00208463#32 [(1#32, 3#32), (2#32, 4#32)] []) = some (0#32, 0x1004#32) := by decide
/-- R262 -/
theorem test_bne : reg 0#5 (run 0xFE209EE3#32 [(1#32, 3#32), (2#32, 4#32)] []) = some (0#32, 0xFFC#32) := by decide
/-- R263 -/
theorem test_blt : reg 0#5 (run 0x0020C863#32 [(1#32, 0xFFFFFFFF#32), (2#32, 1#32)] []) = some (0#32, 0x1010#32) := by decide
/-- R263 -/
theorem test_blt_misaligned_target : reg 0#5 (run 0x0020C163#32 [(1#32, 0#32), (2#32, 1#32)] []) = some (0#32, 0x1002#32) := by decide
/-- R264 -/
theorem test_bge : reg 0#5 (run 0x0020D863#32 [(1#32, 0xFFFFFFFF#32), (2#32, 1#32)] []) = some (0#32, 0x1004#32) := by decide
/-- R264 -/
theorem test_bge_equal : reg 0#5 (run 0x8010D063#32 [] []) = some (0#32, 0#32) := by decide
/-- R265 -/
theorem test_bltu : reg 0#5 (run 0x0020E863#32 [(1#32, 0xFFFFFFFF#32), (2#32, 1#32)] []) = some (0#32, 0x1004#32) := by decide
/-- R266 -/
theorem test_bgeu : reg 0#5 (run 0x0020F863#32 [(1#32, 0xFFFFFFFF#32), (2#32, 1#32)] []) = some (0#32, 0x1010#32) := by decide
/-- R281 -/
theorem test_jal : reg 1#5 (run 0x010000EF#32 [] []) = some (0x1004#32, 0x1010#32) := by decide
/-- R281 -/
theorem test_jal_x0_back : reg 0#5 (run 0xFF9FF06F#32 [] []) = some (0#32, 0xFF8#32) := by decide
/-- R282 -/
theorem test_jalr : reg 1#5 (run 0x000280E7#32 [(5#32, 0x3001#32)] []) = some (0x1004#32, 0x3000#32) := by decide
/-- R282 -/
theorem test_jalr_rd_is_rs1 : reg 5#5 (run 0x004282E7#32 [(5#32, 0x2000#32)] []) = some (0x1004#32, 0x2004#32) := by decide
/-- R291 -/
theorem test_lui : reg 1#5 (run 0xFFFFF0B7#32 [] []) = some (0xFFFFF000#32, 0x1004#32) := by decide
/-- L1-2 -/
theorem test_lui_x0 : reg 0#5 (run 0x12345037#32 [] []) = some (0#32, 0x1004#32) := by decide
/-- R292 -/
theorem test_auipc : reg 1#5 (run 0x12345097#32 [] []) = some (0x12346000#32, 0x1004#32) := by decide
/-- R292 -/
theorem test_auipc_wraps : reg 1#5 (run 0xFFFFF097#32 [] []) = some (0#32, 0x1004#32) := by decide

/-! ### Misaligned accesses (R222, R223, R242, R243, R70) -/

/-- R222, R223, R225, R242, R243 (L2.4): `DATA_ALIGN_POLICY = trap`. -/
theorem test_misaligned_trap :
    report (run 0x00111283#32 [(2#32, 0x2000#32)] dataWords) =
      some (some ⟨.unalignedAccess, 0x1000#32, 0x00111283#32⟩, 0x1000#32) ∧
    report (run 0x00212283#32 [(2#32, 0x2000#32)] dataWords) =
      some (some ⟨.unalignedAccess, 0x1000#32, 0x00212283#32⟩, 0x1000#32) ∧
    report (run 0x00115083#32 [(2#32, 0x2000#32)] dataWords) =
      some (some ⟨.unalignedAccess, 0x1000#32, 0x00115083#32⟩, 0x1000#32) ∧
    report (run 0x006110A3#32 [(2#32, 0x2000#32), (6#32, 0xCAFEBABE#32)] dataWords) =
      some (some ⟨.unalignedAccess, 0x1000#32, 0x006110A3#32⟩, 0x1000#32) ∧
    report (run 0x00612123#32 [(2#32, 0x2000#32), (6#32, 0xCAFEBABE#32)] dataWords) =
      some (some ⟨.unalignedAccess, 0x1000#32, 0x00612123#32⟩, 0x1000#32) := by decide

/-- R222, R223, R242, R243: `DATA_ALIGN_POLICY = mask`. -/
theorem test_misaligned_mask :
    reg 5#5 (nextOf (step (masked (machine 0x1000#32 [(2#32, 0x2000#32)] ((0x1000#32, 0x00111283#32) :: dataWords))))) =
      some (0xFFFF99AA#32, 0x1004#32) ∧
    reg 5#5 (nextOf (step (masked (machine 0x1000#32 [(2#32, 0x2000#32)] ((0x1000#32, 0x00311283#32) :: dataWords))))) =
      some (0x88#32, 0x1004#32) ∧
    reg 5#5 (nextOf (step (masked (machine 0x1000#32 [(2#32, 0x2000#32)] ((0x1000#32, 0x00212283#32) :: dataWords))))) =
      some (0x8899AABB#32, 0x1004#32) ∧
    word 0x2000#32 (nextOf (step (masked (machine 0x1000#32 [(2#32, 0x2000#32), (6#32, 0xCAFEBABE#32)] ((0x1000#32, 0x006110A3#32) :: dataWords))))) =
      some (0x88BABEBB#32, 0x1004#32) ∧
    word 0x2000#32 (nextOf (step (masked (machine 0x1000#32 [(2#32, 0x2000#32), (6#32, 0xCAFEBABE#32)] ((0x1000#32, 0x006111A3#32) :: dataWords))))) =
      some (0xBE99AABB#32, 0x1004#32) ∧
    word 0x2000#32 (nextOf (step (masked (machine 0x1000#32 [(2#32, 0x2000#32), (6#32, 0xCAFEBABE#32)] ((0x1000#32, 0x00612123#32) :: dataWords))))) =
      some (0xCAFEBABE#32, 0x1004#32) := by decide

/-! ### The step (L2.9, L1-8) -/

/-- L1-8 -/
theorem test_unknown_opcode_halts :
    (run 0x0000007F#32 [(1#32, 9#32)] []).map (fun t => (t.run, t.report, t.pc, t.readReg 1#5)) =
      some (.halted, some ⟨.unknownOpcode, 0x1000#32, 0x7F#32⟩, 0x1000#32, 9#32) := by decide
/-- L2.1: RV32M mul -/
theorem test_unknown_function_code_halts :
    report (run 0x02208133#32 [] []) = some (some ⟨.unknownFunctionCode, 0x1000#32, 0x02208133#32⟩, 0x1000#32) := by decide
/-- L2.9 -/
theorem test_fetch_mask : reg 1#5 (nextOf (step (machine 0x1002#32 [] [(0x1000#32, 0x00500093#32)]))) =
    some (5#32, 0x1006#32) := by decide

/-- A machine under `FETCH_ALIGN_POLICY = trap`. -/
def fetchTrap (s : State) : State := { s with params := { s.params with fetchAlign := .trap } }

/-- A machine with this `HALT_PRED`. -/
def withHalt (p : HaltPred) (s : State) : State := { s with params := { s.params with haltPred := p } }

/-- L2.9 -/
theorem test_fetch_trap : report (nextOf (step (fetchTrap (machine 0x1002#32 [] [(0x1000#32, 0x00500093#32)])))) =
    some (some ⟨.unalignedAccess, 0x1002#32, 0x00500093#32⟩, 0x1002#32) := by decide
/-- L2.9 -/
theorem test_halt_pred :
    (nextOf (step (withHalt (.pcIs 0x1000#32) (machine 0x1000#32 [] [])))).map (fun t => (t.status, t.pc)) =
      some (.cleanHalt, 0x1000#32) := by decide
/-- D17: a given instruction word at pc, and a register condition. -/
theorem test_halt_pred_word_and_register :
    (withHalt (.wordIs 0x13#32) (machine 0x1000#32 [] [(0x1000#32, 0x13#32)])).haltHolds = true ∧
    (withHalt (.regIs 2#5 7#32) (machine 0x1000#32 [(2#32, 7#32)] [])).haltHolds = true := by decide
/-- L2.9: empty memory; from reset with no image the first step fails so (log 3). -/
theorem test_reset_step : report (nextOf (step State.reset)) = some (some ⟨.unknownOpcode, 0#32, 0#32⟩, 0#32) := by decide
theorem test_withFetchWord : reg 1#5 (nextOf (step (State.reset.withFetchWord 32 0x00100093))) = some (1#32, 4#32) := by decide
theorem test_withFetchWord_reset_changes_memory_only :
    State.reset.withFetchWord 32 0x00100093 = { State.reset with mem := [(0, 0x93#8), (2, 0x10#8)] } := by decide
/-- L2.6: the target of a taken branch at 0x1002 fetches the word at 0x1000 again. -/
theorem test_branch_to_half_word :
    (run 0x00000163#32 [] []).bind (fun t => (nextOf (step t)).map (·.pc)) = some 0x1004#32 := by decide
theorem test_create_duplicate_refused :
    nextOf (State.create Params.default 0#32 [(0x100#32, 1#32), (0x102#32, 2#32)]) = none := by decide
theorem test_snapshot : (machine 0x1000#32 [(5#32, 3#32)] []).snapshot.x.toList.take 6 =
    [0#32, 0#32, 0#32, 0#32, 0#32, 3#32] := by decide
theorem test_tags : [ErrorKind.unknownOpcode, .unknownFunctionCode, .unalignedAccess].map ErrorKind.tag = [1, 2, 3] := by decide
theorem test_memory_canonical : Memory.canonical [(7, 3#8), (5, 0#8), (2, 1#8), (7, 4#8), (2 ^ 32 + 5, 9#8)] =
    [(2, 1#8), (7, 3#8)] := by decide

/-! ### Witnesses: for each statement with hypotheses, a state and operands that meet them (named after the statement) -/

theorem witness_HalfLoads_aligned :
    (machine 0x1000#32 [(2#32, 0x2000#32)] []).params.dataAlign = .trap ∧
      ((machine 0x1000#32 [(2#32, 0x2000#32)] []).readReg 2#5 + 2#32).toNat % 2 = 0 := by decide

theorem witness_HalfLoads_mask :
    (masked (machine 0x1000#32 [(2#32, 0x2000#32)] [])).params.dataAlign = .mask ∧
      ((masked (machine 0x1000#32 [(2#32, 0x2000#32)] [])).readReg 2#5 + 3#32).toNat % 4 = 3 := by decide

theorem witness_HalfLoads_trap :
    (machine 0x1000#32 [(2#32, 0x2000#32)] []).params.dataAlign = .trap ∧
      ((machine 0x1000#32 [(2#32, 0x2000#32)] []).readReg 2#5 + 1#32).toNat % 2 = 1 := by decide

theorem witness_WordLoad_aligned_at_top :
    (State.reset.readReg 0#5 + 0xFFFFFFFC#32).toNat % 4 = 0 := by decide

theorem witness_WordLoad_trap :
    State.reset.params.dataAlign = .trap ∧ (State.reset.readReg 0#5 + 2#32).toNat % 4 ≠ 0 := by decide

theorem witness_HalfStore_aligned :
    (State.reset.effAddr 0#5 0xFFFFFFFE#32).toNat % 2 = 0 := by decide

theorem witness_HalfStore_mask :
    (masked State.reset).params.dataAlign = .mask ∧ ((masked State.reset).effAddr 0#5 3#32).toNat % 4 = 3 := by decide

theorem witness_HalfStore_trap :
    State.reset.params.dataAlign = .trap ∧ (State.reset.effAddr 0#5 1#32).toNat % 2 = 1 := by decide

theorem witness_WordStore_aligned :
    (State.reset.effAddr 0#5 0xFFFFFFFC#32).toNat % 4 = 0 := by decide

theorem witness_WordStore_trap :
    State.reset.params.dataAlign = .trap ∧ (State.reset.effAddr 0#5 3#32).toNat % 4 ≠ 0 := by decide

theorem witness_SubWordStoreThenLoad :
    (7#5 : RegIx) ≠ 0#5 ∧ ((machine 0x1000#32 [(2#32, 0x2000#32)] []).readReg 2#5 + 2#32).toNat % 2 = 0 := by decide

theorem witness_ImmediateShifts_otherFunct7 :
    (0x20#7 : BitVec 7) ≠ 0x00#7 := by decide

theorem witness_Jalr_otherFunct3 :
    (1#3 : BitVec 3) ≠ 0#3 := by decide

theorem witness_OnlyMisaligned_fails :
    ∃ t, exec (.lw 1#5 0#5 2#32) State.reset = .next t ∧ dataFault State.reset (.lw 1#5 0#5 2#32) = true := ⟨_, rfl, by decide⟩

theorem witness_OnlyMisaligned_completes :
    ∃ t, exec (.lw 1#5 0#5 4#32) State.reset = .next t ∧ dataFault State.reset (.lw 1#5 0#5 4#32) = false := ⟨_, rfl, by decide⟩

theorem witness_OnlyTheDestinationRegisterChanges :
    ∃ t, exec (.addi 31#5 0#5 1#32) State.reset = .next t ∧ t.readReg 31#5 ≠ State.reset.readReg 31#5 := ⟨_, rfl, by decide⟩

theorem witness_OnlyStoredBytesChange :
    ∃ t, exec (.sh 0#5 0#5 4#32) State.reset = .next t ∧ storesTo State.reset 6#32 (.sh 0#5 0#5 4#32) = false ∧
      dataFault State.reset (.sh 0#5 0#5 5#32) = true := ⟨_, rfl, by decide⟩

theorem witness_DestinationZeroChangesOnlyPc :
    dest (.lw 0#5 0#5 4#32) = some 0#5 ∧ dataFault State.reset (.lw 0#5 0#5 4#32) = false := by decide

theorem witness_DecodeOfEncode :
    (Instr.jal 1#5 (BitVec.ofInt 32 (-1048576))).wellFormed = true := by decide

theorem witness_EncodeOfDecode :
    decode .unknown 0xFFF280E7#32 = .instr (.jalr 1#5 5#5 0xFFFFFFFF#32) := by decide

theorem witness_DecoderAccepts :
    (⟨"srai", 0xFE00707F#32, 0x40005013#32⟩ : OpcodeRow) ∈ opcodeTable ∧
      (⟨"srai", 0xFE00707F#32, 0x40005013#32⟩ : OpcodeRow).admits 0x41F0D193#32 = true := by decide

theorem witness_SignExtension :
    (0 : Nat) < 1 ∧ 1 ≤ 32 ∧ 0 < 32 ∧ 32 ≤ 32 := by decide

theorem witness_UnknownOpcodeWords :
    decode .nop 0x0000200F#32 = .unknown .functionCode 0x0000200F#32 ∧
      (0x00000001#32 : Word).extractLsb' 0 2 ≠ 0b11#2 := by decide

theorem witness_FenceAndSystemWords :
    (0x0000100F#32 : Word).extractLsb' 0 7 = 0x0F#7 ∧ (0x0000100F#32 : Word).extractLsb' 12 3 = 1#3 ∧
      (0x0000200F#32 : Word).extractLsb' 0 7 = 0x0F#7 ∧ ¬ ((0x0000200F#32 : Word).extractLsb' 12 3 = 0#3 ∨
        (0x0000200F#32 : Word).extractLsb' 12 3 = 1#3) ∧ (0x00100073#32 : Word).extractLsb' 0 7 = 0x73#7 := by decide

theorem witness_WordReadLanes :
    (0xFFFFFFFE#32 : Word).toNat % 2 = 0 := by decide

theorem witness_MaskedMisaligned :
    (0xFFFFFFFD#32 : Word).toNat % 4 = 1 ∧ (0xFFFFFFFF#32 : Word).toNat % 4 = 3 := by decide

theorem witness_ReadingsDetermineTheState :
    State.reset.Inv ∧ SameRegs State.reset State.reset ∧ SameBytes State.reset State.reset ∧
      SameLoop State.reset State.reset := ⟨⟨wf_nil, by decide, fun _ => rfl⟩, fun _ => rfl, fun _ => rfl, rfl, rfl, rfl⟩

theorem witness_Creation_distinct :
    ([(0x100#32, 1#32), (0x104#32, 2#32)] : Image).Pairwise (fun e f => e.1 &&& 0xFFFFFFFC#32 ≠ f.1 &&& 0xFFFFFFFC#32) := by decide

theorem witness_Creation_duplicate :
    ¬ ([(0x100#32, 1#32), (0x103#32, 2#32)] : Image).Pairwise
      (fun e f => e.1 &&& 0xFFFFFFFC#32 ≠ f.1 &&& 0xFFFFFFFC#32) := by decide

theorem witness_StepRunsTheDecodedInstruction :
    Undisturbed (machine 0x1000#32 [] [(0x1000#32, 0x00500093#32)]) ∧
      decode .unknown (wordAt (machine 0x1000#32 [] [(0x1000#32, 0x00500093#32)]) 0x1000#32) = .instr (.addi 1#5 0#5 5#32) := by
  unfold Undisturbed; decide

theorem witness_StepOfUnknownWord_opcode :
    Undisturbed State.reset ∧ decode .unknown (wordAt State.reset State.reset.pc) =
      .unknown .opcode (wordAt State.reset State.reset.pc) := by
  unfold Undisturbed; decide

theorem witness_StepOfUnknownWord_functionCode :
    Undisturbed (machine 0x1000#32 [] [(0x1000#32, 0x02208133#32)]) ∧
      decode .unknown (wordAt (machine 0x1000#32 [] [(0x1000#32, 0x02208133#32)]) 0x1000#32) = .unknown .functionCode 0x02208133#32 := by
  unfold Undisturbed; decide

theorem witness_FetchAlignment_trap :
    (fetchTrap (machine 0x1002#32 [] [(0x1000#32, 0x00500093#32)])).run = .running ∧
      (fetchTrap (machine 0x1002#32 [] [(0x1000#32, 0x00500093#32)])).haltHolds = false ∧ (fetchTrap (machine 0x1002#32 [] [(0x1000#32, 0x00500093#32)])).params.fetchAlign = .trap ∧
      (fetchTrap (machine 0x1002#32 [] [(0x1000#32, 0x00500093#32)])).pc.toNat % 4 ≠ 0 := by decide

theorem witness_FetchAlignment_mask :
    (machine 0x1002#32 [] [(0x1000#32, 0x00500093#32)]).run = .running ∧ (machine 0x1002#32 [] [(0x1000#32, 0x00500093#32)]).haltHolds = false ∧
      (machine 0x1002#32 [] [(0x1000#32, 0x00500093#32)]).params.fetchAlign = .mask ∧
      decode .unknown (wordAt (machine 0x1002#32 [] [(0x1000#32, 0x00500093#32)]) 0x1002#32) = .instr (.addi 1#5 0#5 5#32) := by decide

theorem witness_HaltPredicate :
    (withHalt (.pcIs 0#32) State.reset).run = .running ∧ (withHalt (.pcIs 0#32) State.reset).report = none ∧
      (withHalt (.pcIs 0#32) State.reset).haltHolds = true := by decide

/-- A machine whose next word is ECALL, with a hook. -/
def hooked : State :=
  { machine 0x1000#32 [] [(0x1000#32, 0x00000073#32)] with params := { Params.default with systemHook := .present } }

theorem witness_SystemWord_present :
    hooked.run = .running ∧ hooked.haltHolds = false ∧ hooked.params.fetchAlign = .mask ∧
      (wordAt hooked hooked.pc).extractLsb' 0 7 = 0x73#7 ∧ hooked.params.systemHook = .present := by decide

theorem witness_SystemWord_absent :
    (machine 0x1000#32 [] [(0x1000#32, 0x00000073#32)]).haltHolds = false ∧
      (wordAt (machine 0x1000#32 [] [(0x1000#32, 0x00000073#32)]) 0x1000#32).extractLsb' 0 7 = 0x73#7 ∧ (machine 0x1000#32 [] [(0x1000#32, 0x00000073#32)]).params.systemHook = .absent := by decide

theorem witness_HaltedHasNoStep :
    State.reset.cleanHalt.run = .halted ∧ State.reset.run = .running := by decide

theorem witness_ErrorsPriority :
    State.reset.run = .running ∧ State.reset.report = none ∧
      (State.reset.params.systemHook = .present → (wordAt State.reset State.reset.pc).extractLsb' 0 7 ≠ 0x73#7) := by decide

theorem witness_EveryRecordedFailureIsPrecise :
    State.reset.run = .running ∧ State.reset.report = none ∧
      (State.reset.params.systemHook = .present → (wordAt State.reset State.reset.pc).extractLsb' 0 7 ≠ 0x73#7) ∧
      ∃ t, step State.reset = .next t ∧ t.report = some ⟨.unknownOpcode, 0#32, 0#32⟩ :=
  ⟨rfl, rfl, by decide, _, rfl, by decide⟩

/-- A machine about to store `addi x1, x0, 5` over the next instruction. -/
def selfModifying : State :=
  machine 0x1000#32 [(1#32, 0x1004#32), (2#32, 0x00500093#32)] [(0x1000#32, 0x0020A023#32)]

theorem witness_StoreIsSeen :
    dataFault selfModifying (.sw 1#5 2#5 0#32) = false ∧
      selfModifying.effAddr 1#5 0#32 &&& 0xFFFFFFFC#32 = (selfModifying.pc + 4#32) &&& 0xFFFFFFFC#32 ∧
      ∃ t, exec (.sw 1#5 2#5 0#32) selfModifying = .next t ∧ Undisturbed t ∧
        decode t.params.fence (selfModifying.readReg 2#5) = .instr (.addi 1#5 0#5 5#32) := by
  refine ⟨by decide, by decide, _, rfl, ?_, by decide⟩
  unfold Undisturbed; decide

theorem witness_StepKeepsTheStateInvariant :
    State.reset.Inv ∧ ∃ t, step State.reset = .next t := ⟨⟨wf_nil, by decide, fun _ => rfl⟩, _, rfl⟩

theorem witness_StepKeepsThePcEven :
    (State.reset.params.systemHook = .present → (wordAt State.reset State.reset.pc).extractLsb' 0 7 ≠ 0x73#7) ∧
      State.reset.pc.toNat % 2 = 0 ∧ ∃ t, step State.reset = .next t := ⟨by decide, by decide, _, rfl⟩

theorem witness_StepKeepsTheParameters :
    ∃ t, step State.reset = .next t := ⟨_, rfl⟩

theorem witness_PlacedWord :
    decode State.reset.params.fence (BitVec.ofNat 32 0x00100093) = .instr (.addi 1#5 0#5 1#32) := by decide

end Sys2Proof.Tests
end

section
/-! PROOFS of the scope rules (spec/00_scope.md): R15, the extensions `sext_N` and `zext_N`, and R26, the state accessor. -/

namespace Sys2Proof.Proofs

open Sys2Proof.Machine Sys2Proof.Laws

/-! ### The extensions (R15) -/

/-- The bits of `zext_N`: those above the value are 0. -/
theorem getLsbD_zext {n k : Nat} (v : BitVec n) (hk : k < 32) :
    (zext v).getLsbD k = if k < n then v.getLsbD k else false := by
  split
  next hlt => simp [zext, hk]
  next hge => simp [zext, BitVec.getLsbD_of_ge v k (by omega)]

/-- The bits of `sext_N`: those above the value repeat its top bit. -/
theorem getLsbD_sext {n k : Nat} (v : BitVec n) (hk : k < 32) :
    (sext v).getLsbD k = if k < n then v.getLsbD k else v.getLsbD (n - 1) := by
  rw [sext, BitVec.getLsbD_signExtend, BitVec.msb_eq_getLsbD_last, decide_eq_true hk, Bool.true_and]

/-- The bits of an arithmetic right shift of a word: bit 31 fills the places the shift leaves. -/
theorem getLsbD_sshiftRight_word {k : Nat} (w : Word) (d : Nat) (hk : k < 32) :
    (w.sshiftRight d).getLsbD k = if k + d < 32 then w.getLsbD (k + d) else w.getLsbD 31 := by
  simp [BitVec.getLsbD_sshiftRight, BitVec.msb_eq_getLsbD_last, Nat.add_comm d k, Nat.not_le.mpr hk]

/-- The left shift moves the value's top bit to bit 31, where the right shift takes the bits it fills in from. -/
theorem sext_eq_sshiftRight_shiftLeft_zext {n : Nat} (v : BitVec n) (hpos : 0 < n) (hle : n ≤ 32) :
    sext v = ((zext v) <<< (32 - n)).sshiftRight (32 - n) := by
  have shifted : ∀ j < n, ((zext v) <<< (32 - n)).getLsbD (j + (32 - n)) = v.getLsbD j := fun j hj => by
    rw [BitVec.getLsbD_shiftLeft, Nat.add_sub_cancel, getLsbD_zext v (by omega), if_pos hj]
    simp [show j + (32 - n) < 32 by omega]
  have top : ((zext v) <<< (32 - n)).getLsbD 31 = v.getLsbD (n - 1) := by
    rw [← shifted (n - 1) (by omega), show n - 1 + (32 - n) = 31 by omega]
  refine field_ext fun k hk => ?_
  rw [getLsbD_sext v hk, getLsbD_sshiftRight_word _ _ hk, top]
  by_cases hlt : k < n
  · rw [if_pos hlt, if_pos (by omega), shifted k hlt]
  · rw [if_neg hlt, if_neg (by omega)]

/-- The I-immediate is the top field of the word, so that the word's bit 31 is the bit it extends. -/
theorem immI_eq_sshiftRight (w : Word) : Field.immI w = w.sshiftRight 20 := by
  refine field_ext fun k hk => ?_
  rw [Field.immI, getLsbD_sext _ hk, getLsbD_sshiftRight_word w 20 hk]
  by_cases hlt : k < 12
  · simp [hlt, Nat.add_comm 20 k, show k + 20 < 32 by omega]
  · simp [hlt, show ¬ k + 20 < 32 by omega]

/-- Settles O31: `sext_N` and `zext_N` bit by bit, and the two shifts of R15. -/
theorem signExtensionIsLeftShiftThenArithmeticRightShift :
    Obligations.SignExtensionIsLeftShiftThenArithmeticRightShift :=
  ⟨immI_eq_sshiftRight, fun _ v hpos hle =>
    ⟨fun _ hk => getLsbD_sext v hk, sext_eq_sshiftRight_shiftLeft_zext v hpos hle, fun _ hk => getLsbD_zext v hk⟩⟩

/-! ### The state accessor (R26) -/

@[simp] theorem snapshot_pc (s : State) : s.snapshot.pc = s.pc := rfl

/-- An entry of the snapshot is read at the register's own number. -/
@[simp] theorem snapshot_x (s : State) (r : RegIx) : s.snapshot.x[r.toNat]'r.isLt = s.readReg r := by
  simp [State.snapshot]

/-- Settles O41, from what each field of the snapshot holds. -/
theorem snapshotShowsRegistersAndPc : Obligations.SnapshotShowsRegistersAndPc :=
  fun s r => ⟨snapshot_x s r, snapshot_pc s⟩

end Sys2Proof.Proofs
end

section
/-! PROOFS of the state rules (spec/10_state.md): R32 to R34, the register file. -/

namespace Sys2Proof.Proofs

open Sys2Proof.Machine Sys2Proof.Spec

/-- The condition of `readReg_writeReg` as `WritesReg` states it, on the register that is read. -/
theorem readReg_writeReg_of_read_ne_zero (s : State) (r q : RegIx) (v : Word) :
    (s.writeReg r v).readReg q = if q = r ∧ q ≠ 0#5 then v else s.readReg q := by
  have sameCondition : q = r ∧ q ≠ 0#5 ↔ q = r ∧ r ≠ 0#5 :=
    and_congr_right fun heq => by rw [heq]
  simp only [readReg_writeReg, sameCondition]

/-- The frame of a register write: the register file is all it can change. -/
theorem writeReg_writesReg (s : State) (r : RegIx) (v : Word) :
    WritesReg s (s.writeReg r v) r v s.pc := by
  have sameBytes : SameBytes s (s.writeReg r v) := fun _ => by rw [writeReg_mem]
  have sameLoop : SameLoop s (s.writeReg r v) :=
    ⟨writeReg_run s r v, writeReg_report s r v, writeReg_params s r v⟩
  exact ⟨fun q => readReg_writeReg_of_read_ne_zero s r q v, writeReg_pc s r v, sameBytes, sameLoop⟩

/-- Settles O36: x0 by R32 and R33, the other registers by what a read after a write returns, the rest by its frame. -/
theorem registerFileReadsLastWriteAndZeroForRegisterZero :
    Obligations.RegisterFileReadsLastWriteAndZeroForRegisterZero :=
  fun s r q v =>
    ⟨readReg_zero s, writeReg_zero s v, readReg_writeReg s r q v, writeReg_writesReg s r v⟩

end Sys2Proof.Proofs
end

section
/-! PROOFS of the memory rules (spec/20_memory.md): R61 and R63, the word port. -/

namespace Sys2Proof.Proofs

open Sys2Proof.Machine Sys2Proof.Laws

/-! ### The containing word of an address (R61) -/

theorem wordAddr_eq_shiftLeft_ushiftRight (a : Word) : wordAddr a = (a >>> 2) <<< 2 := by
  have mask : ~~~3#32 = BitVec.allOnes 32 <<< 2 := by decide
  rw [wordAddr, mask, BitVec.shiftLeft_ushiftRight]

/-- The containing word starts at the last multiple of 4 up to the address. -/
theorem toNat_wordAddr (a : Word) : (wordAddr a).toNat = 4 * (a.toNat / 4) := by
  have hlt := a.isLt
  rw [wordAddr_eq_shiftLeft_ushiftRight, BitVec.toNat_shiftLeft, BitVec.toNat_ushiftRight,
    Nat.shiftLeft_eq, Nat.shiftRight_eq_div_pow]
  omega

/-- Two addresses lie in one word when they have the same multiple of 4 below them. -/
theorem wordAddr_eq_wordAddr_iff (a b : Word) : wordAddr b = wordAddr a ↔ b.toNat / 4 = a.toNat / 4 := by
  rw [← BitVec.toNat_inj, toNat_wordAddr, toNat_wordAddr]
  omega

theorem wordAddr_wordAddr (a : Word) : wordAddr (wordAddr a) = wordAddr a := by
  rw [wordAddr_eq_wordAddr_iff, toNat_wordAddr]
  omega

/-- The address `k` places above the start of the word of `a` is the one address of that word in lane `k`. -/
theorem eq_wordAddr_add_iff (a b : Word) {k : Nat} (hk : k < 4) :
    b = wordAddr a + BitVec.ofNat 32 k ↔ wordAddr b = wordAddr a ∧ b.toNat % 4 = k := by
  have hlt := a.isLt
  rw [wordAddr_eq_wordAddr_iff, ← BitVec.toNat_inj, BitVec.toNat_add, BitVec.toNat_ofNat, toNat_wordAddr]
  omega

/-- Every address is its lane of its own word. -/
theorem wordAddr_add_lane (a : Word) : wordAddr a + BitVec.ofNat 32 (a.toNat % 4) = a :=
  ((eq_wordAddr_add_iff a a (Nat.mod_lt _ (by decide))).mpr ⟨rfl, rfl⟩).symm

theorem toNat_mod_four_succ_of_even {a : Word} (heven : a.toNat % 2 = 0) : (a + 1#32).toNat % 4 = a.toNat % 4 + 1 := by
  bv_omega

theorem wordAddr_succ_of_even {a : Word} (heven : a.toNat % 2 = 0) : wordAddr (a + 1#32) = wordAddr a := by
  rw [wordAddr_eq_wordAddr_iff]
  bv_omega

/-! ### The lanes of a word (R66) -/

/-- Byte `k` of a word put together from bytes is the `k`-th of them. -/
theorem byteOf_wordOfBytes (f : Nat → Byte) {k : Nat} (hk : k < 4) :
    byteOf (wordOfBytes (f 0) (f 1) (f 2) (f 3)) k = f k := by
  have above {hi low : Nat} {u : BitVec hi} {v w : Byte} (h : u.extractLsb' low 8 = w) :
      (u ++ v).extractLsb' (low + 8) 8 = w :=
    (BitVec.extractLsb'_append_eq_of_le (Nat.le_add_left 8 low)).trans h
  match k, hk with
  | 0, _ => exact BitVec.extractLsb'_append_eq_right
  | 1, _ => exact above BitVec.extractLsb'_append_eq_right
  | 2, _ => exact above (above BitVec.extractLsb'_append_eq_right)
  | 3, _ => exact above (above (above BitVec.extractLsb'_eq_self))

/-- A halfword field is its two bytes, the higher one high. -/
theorem extractLsb'_half_eq_bytes (w : Word) (k : Nat) :
    w.extractLsb' (8 * k) 16 = byteOf w (k + 1) ++ byteOf w k :=
  (BitVec.extractLsb'_append_extractLsb'_eq_extractLsb' (Nat.mul_succ 8 k)).symm

/-! ### Word reads (R61) -/

/-- Lane `k` of `WordRead` is the byte `k` places above the word's address. -/
theorem byteOf_wordRead (m : Memory) (a : Word) {k : Nat} (hk : k < 4) :
    byteOf (Memory.wordRead m a) k = Memory.readByte m (wordAddr a + BitVec.ofNat 32 k) := by
  rw [← byteOf_wordOfBytes (fun j => Memory.readByte m (wordAddr a + BitVec.ofNat 32 j)) hk, BitVec.add_zero]
  rfl

/-- The byte at an address is its lane of its word. -/
theorem readByte_eq_byteOf_wordRead (m : Memory) (a : Word) :
    Memory.readByte m a = byteOf (Memory.wordRead m a) (a.toNat % 4) := by
  rw [byteOf_wordRead m a (Nat.mod_lt _ (by decide)), wordAddr_add_lane]

theorem wordRead_congr (m : Memory) {a b : Word} (hword : wordAddr a = wordAddr b) :
    Memory.wordRead m a = Memory.wordRead m b := by
  unfold Memory.wordRead
  rw [hword]

/-- The halfword at an even address does not leave the word. -/
theorem extractLsb'_half_wordRead (m : Memory) {a : Word} (heven : a.toNat % 2 = 0) :
    (Memory.wordRead m a).extractLsb' (8 * (a.toNat % 4)) 16 =
      Memory.readByte m (a + 1#32) ++ Memory.readByte m a := by
  rw [extractLsb'_half_eq_bytes, readByte_eq_byteOf_wordRead m a, readByte_eq_byteOf_wordRead m (a + 1#32),
    wordRead_congr m (wordAddr_succ_of_even heven), toNat_mod_four_succ_of_even heven]

/-- Settles O37: each byte is its lane of the word, and only the containing word of an address counts. -/
theorem wordReadIsLittleEndianWithByteLanes : Obligations.WordReadIsLittleEndianWithByteLanes :=
  fun m a => ⟨readByte_eq_byteOf_wordRead m a, extractLsb'_half_wordRead m,
    wordRead_congr m (wordAddr_wordAddr a).symm⟩

/-! ### Word writes (R63) -/

/-- `readByte_wordWrite` by word and lane in place of the four addresses. -/
theorem readByte_wordWrite_eq_lane (m : Memory) (a w b : Word) :
    Memory.readByte (Memory.wordWrite m a w) b =
      if wordAddr b = wordAddr a then byteOf w (b.toNat % 4) else Memory.readByte m b := by
  have lane : ∀ k < 4, (b = wordAddr a + BitVec.ofNat 32 k ↔ wordAddr b = wordAddr a ∧ b.toNat % 4 = k) :=
    fun _ => eq_wordAddr_add_iff a b
  have lane_zero : b = wordAddr a ↔ wordAddr b = wordAddr a ∧ b.toNat % 4 = 0 := by
    simpa using lane 0 (by decide)
  rw [readByte_wordWrite]
  simp only [lane 3 (by decide), lane 2 (by decide), lane 1 (by decide), lane_zero]
  by_cases hword : wordAddr b = wordAddr a
  · simp only [hword, true_and, if_true]
    have hlane : b.toNat % 4 < 4 := Nat.mod_lt _ (by decide)
    interval_cases b.toNat % 4 <;> rfl
  · simp only [hword, false_and, if_false]

/-- Settles O38, by the word and the lane of the byte that is read. -/
theorem wordWriteSetsExactlyTheFourBytes : Obligations.WordWriteSetsExactlyTheFourBytes :=
  readByte_wordWrite_eq_lane

end Sys2Proof.Proofs
end

section
/-! PROOFS of the encoding rules (spec/30_encoding.md): R102 to R106, the immediates, and R109, the worked words. -/

namespace Sys2Proof.Proofs

open Sys2Proof.Laws

/-! ### The value of a sign-extended field (R15) -/

theorem toInt_sext {n : Nat} (v : BitVec n) (hle : n ≤ 32) : (sext v).toInt = v.toInt :=
  BitVec.toInt_signExtend_of_le hle

/-- A field of `n` bits extends to its own two's complement range. -/
theorem toInt_sext_bounds {n : Nat} (v : BitVec n) (hle : n ≤ 32) :
    -2 ^ (n - 1) ≤ (sext v).toInt ∧ (sext v).toInt ≤ 2 ^ (n - 1) - 1 := by
  rw [toInt_sext v hle]
  exact ⟨v.le_toInt, v.toInt_le⟩

/-- With a 0 as its bit 0 a field extends to twice what it holds: the range doubles, and only even values are left. -/
theorem toInt_sext_append_zero_bounds {n : Nat} (v : BitVec n) (hle : n + 1 ≤ 32) :
    2 * -2 ^ (n - 1) ≤ (sext (v ++ 0#1)).toInt ∧ (sext (v ++ 0#1)).toInt ≤ 2 * (2 ^ (n - 1) - 1) := by
  have twice : (sext (v ++ 0#1)).toInt = 2 * v.toInt := by
    rw [toInt_sext _ hle, BitVec.toInt_append_zero, pow_one]
  have low := v.le_toInt
  have high := v.toInt_le
  rw [twice]
  constructor <;> omega

theorem toNat_mod_two_eq_zero_of_getLsbD_zero {n : Nat} {v : BitVec n} (hbit : v.getLsbD 0 = false) :
    v.toNat % 2 = 0 := by
  simpa [BitVec.getLsbD, Nat.testBit_zero] using hbit

/-! ### The I-immediate (R102) -/

theorem getLsbD_immI (w : Word) {k : Nat} (hk : k < 32) :
    (Field.immI w).getLsbD k = if k < 12 then w.getLsbD (k + 20) else w.getLsbD 31 := by
  rw [immI_eq_sshiftRight, getLsbD_sshiftRight_word w 20 hk]
  exact if_congr (by omega) rfl rfl

theorem immI_bounds (w : Word) : -2048 ≤ (Field.immI w).toInt ∧ (Field.immI w).toInt ≤ 2047 :=
  toInt_sext_bounds (w.extractLsb' 20 12) (by decide)

/-! ### The S-immediate (R103) -/

/-- Inside the field each bit is read at its own place; above it stands the field's top bit, bit 31 of the word. -/
theorem getLsbD_immS (w : Word) {k : Nat} (hk : k < 32) :
    (Field.immS w).getLsbD k =
      if k < 5 then w.getLsbD (k + 7) else if k < 12 then w.getLsbD (k + 20) else w.getLsbD 31 := by
  simp only [Field.immS, getLsbD_sext _ hk, BitVec.getLsbD_append, BitVec.getLsbD_extractLsb']
  by_cases hfield : k < 12
  · interval_cases k <;> simp
  · simp [hfield, show ¬ k < 5 by omega]

theorem immS_bounds (w : Word) : -2048 ≤ (Field.immS w).toInt ∧ (Field.immS w).toInt ≤ 2047 :=
  toInt_sext_bounds (w.extractLsb' 25 7 ++ w.extractLsb' 7 5) (by decide)

/-! ### The U-immediate (R105) -/

theorem getLsbD_immU (w : Word) {k : Nat} (hk : k < 32) :
    (Field.immU w).getLsbD k = if k < 12 then false else w.getLsbD k := by
  rw [Field.immU, BitVec.getLsbD_append, BitVec.getLsbD_extractLsb']
  by_cases hlow : k < 12
  · simp [hlow]
  · simp [hlow, show k - 12 < 20 by omega, show 12 + (k - 12) = k by omega]

theorem immU_eq_and_mask (w : Word) : Field.immU w = w &&& 0xFFFFF000#32 := by
  have mask : 0xFFFFF000#32 = BitVec.allOnes 32 <<< 12 := by decide
  refine field_ext fun k hk => ?_
  rw [getLsbD_immU w hk, mask, BitVec.getLsbD_and, BitVec.getLsbD_shiftLeft, BitVec.getLsbD_allOnes]
  by_cases hlow : k < 12
  · simp [hlow]
  · simp [hlow, hk, show k - 12 < 32 by omega]

/-! ### The B-immediate (R104) -/

theorem getLsbD_immB (w : Word) {k : Nat} (hk : k < 32) :
    (Field.immB w).getLsbD k =
      if k = 0 then false else if k ≤ 4 then w.getLsbD (k + 7) else if k ≤ 10 then w.getLsbD (k + 20)
      else if k = 11 then w.getLsbD 7 else w.getLsbD 31 := by
  simp only [Field.immB, getLsbD_sext _ hk, BitVec.getLsbD_append, BitVec.getLsbD_extractLsb']
  by_cases hfield : k < 13
  · interval_cases k <;> simp
  · simp [hfield, show k ≠ 0 by omega, show ¬ k ≤ 4 by omega, show ¬ k ≤ 10 by omega, show k ≠ 11 by omega]

theorem immB_bounds (w : Word) : -4096 ≤ (Field.immB w).toInt ∧ (Field.immB w).toInt ≤ 4094 :=
  toInt_sext_append_zero_bounds
    (w.extractLsb' 31 1 ++ w.extractLsb' 7 1 ++ w.extractLsb' 25 6 ++ w.extractLsb' 8 4) (by decide)

theorem immB_even (w : Word) : (Field.immB w).toNat % 2 = 0 :=
  toNat_mod_two_eq_zero_of_getLsbD_zero (getLsbD_immB w (by decide))

/-! ### The J-immediate (R106) -/

theorem getLsbD_immJ (w : Word) {k : Nat} (hk : k < 32) :
    (Field.immJ w).getLsbD k =
      if k = 0 then false else if k ≤ 10 then w.getLsbD (k + 20) else if k = 11 then w.getLsbD 20
      else if k ≤ 19 then w.getLsbD k else w.getLsbD 31 := by
  simp only [Field.immJ, getLsbD_sext _ hk, BitVec.getLsbD_append, BitVec.getLsbD_extractLsb']
  by_cases hfield : k < 21
  · interval_cases k <;> simp
  · simp [hfield, show k ≠ 0 by omega, show ¬ k ≤ 10 by omega, show k ≠ 11 by omega, show ¬ k ≤ 19 by omega]

theorem immJ_bounds (w : Word) : -1048576 ≤ (Field.immJ w).toInt ∧ (Field.immJ w).toInt ≤ 1048574 :=
  toInt_sext_append_zero_bounds
    (w.extractLsb' 31 1 ++ w.extractLsb' 12 8 ++ w.extractLsb' 20 1 ++ w.extractLsb' 21 10) (by decide)

theorem immJ_even (w : Word) : (Field.immJ w).toNat % 2 = 0 :=
  toNat_mod_two_eq_zero_of_getLsbD_zero (getLsbD_immJ w (by decide))

/-! ### The statements -/

/-- Settles O29, format by format. -/
theorem immediatesISAndUTakeTheStatedBits : Obligations.ImmediatesISAndUTakeTheStatedBits := by
  intro w
  obtain ⟨immI_low, immI_high⟩ := immI_bounds w
  obtain ⟨immS_low, immS_high⟩ := immS_bounds w
  exact ⟨fun _ => getLsbD_immI w, immI_eq_sshiftRight w, immI_low, immI_high,
    fun _ => getLsbD_immS w, immS_low, immS_high, fun _ => getLsbD_immU w, immU_eq_and_mask w⟩

/-- Settles O30: the last part is R15's mechanism for the 21 bits that `immJ` extends. -/
theorem immediatesBAndJTakeTheStatedBits : Obligations.ImmediatesBAndJTakeTheStatedBits := by
  intro w
  obtain ⟨immB_low, immB_high⟩ := immB_bounds w
  obtain ⟨immJ_low, immJ_high⟩ := immJ_bounds w
  exact ⟨fun _ => getLsbD_immB w, immB_low, immB_high, immB_even w,
    fun _ => getLsbD_immJ w, immJ_low, immJ_high, immJ_even w,
    sext_eq_sshiftRight_shiftLeft_zext _ (by decide) (by decide)⟩

/-- Settles O35, by running the decoder on the seven words. -/
theorem workedWordsDecodeAsStated : Obligations.WorkedWordsDecodeAsStated := by
  unfold Obligations.WorkedWordsDecodeAsStated
  decide

end Sys2Proof.Proofs
end

section
/-! PROOFS of the register-register rules (spec/41_register_register.md): R181 to R190, encoding and effect. -/

namespace Sys2Proof.Proofs

open Sys2Proof.Machine Sys2Proof.Laws Sys2Proof.Spec

/-! ### Encoding (R111) -/

/-- Under opcode 0x33 the function codes tell the ten instructions apart, so each is read back from its word. -/
theorem decode_encode_of_opcode_op (fp : FencePolicy) (i : Instr) (hop : Field.opcode (encode i) = 0x33#7) :
    decode fp (encode i) = .instr i := by
  cases i
  case add | sub | sll | slt | sltu | xor | srl | sra | or | and => simp [encode, decode, decodeOp]
  all_goals simp [encode] at hop

/-! ### A register result and its frame (R161, R180) -/

/-- `finish` completes, and writes its destination register and pc alone. -/
theorem finish_writesReg (s : State) (rd : RegIx) (v next : Word) :
    ∃ t, s.finish rd v next = .next t ∧ WritesReg s t rd v next := by
  obtain ⟨regs, -, bytes, loop⟩ := writeReg_writesReg s rd v
  exact ⟨_, rfl, regs, setPc_pc _ next, bytes, loop⟩

/-- The shape of the ten instructions, which `exec` takes to `regReg` by definition: what is left to say of each is the
value of its operation. -/
theorem regReg_writesReg {s : State} {op : Word → Word → Word} {rd rs1 rs2 : RegIx} {v : Word}
    (hop : op (s.readReg rs1) (s.readReg rs2) = v) :
    ∃ t, s.regReg op rd rs1 rs2 = .next t ∧ WritesReg s t rd v (s.pc + 4#32) :=
  hop ▸ finish_writesReg s rd _ s.pcPlus4

/-! ### Sum and difference (R181, R182) -/

theorem aluAdd_eq_ofNat (a b : Word) : aluAdd a b = BitVec.ofNat 32 (a.toNat + b.toNat) := by
  simp [aluAdd, BitVec.ofNat_add]

theorem aluSub_eq_ofInt (a b : Word) : aluSub a b = BitVec.ofInt 32 (a.toInt - b.toInt) := by
  rw [Int.sub_eq_add_neg, BitVec.ofInt_add, BitVec.ofInt_neg, BitVec.ofInt_toInt, BitVec.ofInt_toInt, aluSub,
    BitVec.sub_eq_add_neg]

/-! ### Comparisons (R184, R185) -/

theorem boolWord_decide (p : Prop) [Decidable p] : boolWord (decide p) = zeroOne p := by
  simp [boolWord, zeroOne]

theorem aluSlt_eq_zeroOne (a b : Word) : aluSlt a b = zeroOne (a.toInt < b.toInt) :=
  boolWord_decide _

theorem aluSltu_eq_zeroOne (a b : Word) : aluSltu a b = zeroOne (a.toNat < b.toNat) :=
  boolWord_decide _

/-! ### Shifts (R183, R187, R188) -/

/-- The low 5 bits of a word are its remainder by 32. -/
theorem shiftAmount_eq_mod (b : Word) : shiftAmount b = b.toNat % 32 := by
  simp [shiftAmount]

theorem shiftLeft_eq_mul_pow (a : Word) (n : Nat) : shiftLeft a n = BitVec.ofNat 32 (a.toNat * 2 ^ n) := by
  rw [shiftLeft, ← BitVec.toNat_inj, BitVec.toNat_shiftLeft, BitVec.toNat_ofNat, Nat.shiftLeft_eq]

theorem shiftRightLogical_eq_div_pow (a : Word) (n : Nat) :
    shiftRightLogical a n = BitVec.ofNat 32 (a.toNat / 2 ^ n) := by
  rw [← Nat.shiftRight_eq_div_pow, ← BitVec.toNat_ushiftRight, BitVec.ofNat_toNat, BitVec.setWidth_eq,
    shiftRightLogical]

/-- `Int` division by a positive number rounds down, as the arithmetic shift does. -/
theorem shiftRightArith_eq_div_pow (a : Word) (n : Nat) :
    shiftRightArith a n = BitVec.ofInt 32 (a.toInt / 2 ^ n) := by
  rw [shiftRightArith, BitVec.sshiftRight, Int.shiftRight_eq_div_pow, Int.natCast_pow, Nat.cast_ofNat]

theorem aluSll_eq_mul_pow (a b : Word) : aluSll a b = BitVec.ofNat 32 (a.toNat * 2 ^ (b.toNat % 32)) := by
  rw [aluSll, shiftAmount_eq_mod, shiftLeft_eq_mul_pow]

theorem aluSrl_eq_div_pow (a b : Word) : aluSrl a b = BitVec.ofNat 32 (a.toNat / 2 ^ (b.toNat % 32)) := by
  rw [aluSrl, shiftAmount_eq_mod, shiftRightLogical_eq_div_pow]

theorem aluSra_eq_div_pow (a b : Word) : aluSra a b = BitVec.ofInt 32 (a.toInt / 2 ^ (b.toNat % 32)) := by
  rw [aluSra, shiftAmount_eq_mod, shiftRightArith_eq_div_pow]

/-! ### The statements -/

/-- Settles O1: the two words read back, and the value of each operation in the common shape. -/
theorem addSubDecodeAndWriteModularResult : Obligations.AddSubDecodeAndWriteModularResult :=
  fun fp _ rd rs1 rs2 =>
    ⟨decode_encode_of_opcode_op fp (.add rd rs1 rs2) (opcode_encodeR ..),
      decode_encode_of_opcode_op fp (.sub rd rs1 rs2) (opcode_encodeR ..),
      regReg_writesReg (aluAdd_eq_ofNat _ _), regReg_writesReg (aluSub_eq_ofInt _ _)⟩

/-- Settles O2, from the comparator's conditions as comparisons of integers. -/
theorem sltSltuDecodeAndWriteComparison : Obligations.SltSltuDecodeAndWriteComparison :=
  fun fp _ rd rs1 rs2 =>
    ⟨decode_encode_of_opcode_op fp (.slt rd rs1 rs2) (opcode_encodeR ..),
      decode_encode_of_opcode_op fp (.sltu rd rs1 rs2) (opcode_encodeR ..),
      regReg_writesReg (aluSlt_eq_zeroOne _ _), regReg_writesReg (aluSltu_eq_zeroOne _ _)⟩

/-- Settles O3: the ALU's three operations are the bitwise ones by definition. -/
theorem xorOrAndDecodeAndWriteBitwiseResult : Obligations.XorOrAndDecodeAndWriteBitwiseResult :=
  fun fp _ rd rs1 rs2 =>
    ⟨decode_encode_of_opcode_op fp (.xor rd rs1 rs2) (opcode_encodeR ..),
      decode_encode_of_opcode_op fp (.or rd rs1 rs2) (opcode_encodeR ..),
      decode_encode_of_opcode_op fp (.and rd rs1 rs2) (opcode_encodeR ..),
      regReg_writesReg (op := aluXor) rfl, regReg_writesReg (op := aluOr) rfl, regReg_writesReg (op := aluAnd) rfl⟩

/-- Settles O4, from the shifts as product and quotient by a power of 2. -/
theorem registerShiftsDecodeAndShiftByLowFiveBits : Obligations.RegisterShiftsDecodeAndShiftByLowFiveBits :=
  fun fp _ rd rs1 rs2 =>
    ⟨decode_encode_of_opcode_op fp (.sll rd rs1 rs2) (opcode_encodeR ..),
      decode_encode_of_opcode_op fp (.srl rd rs1 rs2) (opcode_encodeR ..),
      decode_encode_of_opcode_op fp (.sra rd rs1 rs2) (opcode_encodeR ..),
      regReg_writesReg (aluSll_eq_mul_pow _ _), regReg_writesReg (aluSrl_eq_div_pow _ _),
      regReg_writesReg (aluSra_eq_div_pow _ _)⟩

end Sys2Proof.Proofs
end

section
/-! PROOFS of the register-immediate rules (spec/42_register_immediate.md): R201 to R206, encoding and effect. -/

namespace Sys2Proof.Proofs

open Sys2Proof.Machine Sys2Proof.Laws Sys2Proof.Spec

/-! ### The I-immediate in its word (R101, R102) -/

@[simp] theorem immI_encodeI (imm : Word) (rs1 : RegIx) (f3 : BitVec 3) (rd : RegIx) (opc : BitVec 7) :
    Field.immI (encodeI imm rs1 f3 rd opc) = sext (imm.extractLsb' 0 12) := by
  refine congrArg sext (field_ext fun k hk => ?_)
  simp only [encodeI, BitVec.getLsbD_extractLsb', BitVec.getLsbD_append]
  interval_cases k <;> simp

theorem extractLsb'_sext (i : BitVec 12) : (sext i).extractLsb' 0 12 = i := by
  refine field_ext fun k hk => ?_
  rw [BitVec.getLsbD_extractLsb', decide_eq_true hk, Bool.true_and, Nat.zero_add, getLsbD_sext i (by omega), if_pos hk]

/-- A word laid out with 12 immediate bits is the encoding of their sign extension. -/
theorem append_eq_encodeI (i : BitVec 12) (rs1 : RegIx) (f3 : BitVec 3) (rd : RegIx) (opc : BitVec 7) :
    i ++ rs1 ++ f3 ++ rd ++ opc = encodeI (sext i) rs1 f3 rd opc := by
  rw [encodeI, extractLsb'_sext]

theorem fits12_sext (i : BitVec 12) : Imm.fits12 (sext i) = true := by
  obtain ⟨low, high⟩ := toInt_sext_bounds i (by decide)
  exact Bool.and_eq_true_iff.mpr ⟨decide_eq_true low, decide_eq_true high⟩

/-- An immediate in range is the extension of its low 12 bits, so none of it is lost in the word. -/
theorem sext_extractLsb'_of_fits12 {imm : Word} (hfits : Imm.fits12 imm = true) :
    sext (imm.extractLsb' 0 12) = imm := by
  obtain ⟨low, high⟩ : -2048 ≤ imm.toInt ∧ imm.toInt ≤ 2047 := by simpa [Imm.fits12] using hfits
  rw [← BitVec.toInt_inj, toInt_sext _ (by decide), BitVec.toInt_extractLsb', Nat.shiftRight_zero]
  calc (imm.toNat : Int).bmod (2 ^ 12)
    _ = imm.toInt.bmod (2 ^ 12) := by rw [BitVec.toInt_eq_toNat_bmod, Int.bmod_bmod_of_dvd (by decide)]
    _ = imm.toInt := Int.bmod_eq_of_le (by omega) (by omega)

/-! ### Encoding (R111) -/

/-- Under opcode 0x13 the function codes tell the nine instructions apart, so each is read back from its word. -/
theorem decode_encode_of_opcode_opImm (fp : FencePolicy) (i : Instr) (hop : Field.opcode (encode i) = 0x13#7)
    (hwf : i.wellFormed = true) : decode fp (encode i) = .instr i := by
  cases i
  case addi | slti | sltiu | xori | ori | andi =>
    simp [encode, decode, decodeOpImm, sext_extractLsb'_of_fits12 hwf]
  case slli | srli | srai => simp [encode, decode, decodeOpImm]
  all_goals simp [encode] at hop

/-! ### Effect (R200) -/

/-- The shape of the six instructions, which `exec` takes to `regImm` by definition: what is left to say of each is the
value of its operation. -/
theorem regImm_writesReg {s : State} {op : Word → Word → Word} {rd rs1 : RegIx} {imm v : Word}
    (hop : op (s.readReg rs1) imm = v) :
    ∃ t, s.regImm op rd rs1 imm = .next t ∧ WritesReg s t rd v (s.pc + 4#32) :=
  hop ▸ finish_writesReg s rd _ s.pcPlus4

/-- The sum as a signed one: modulo 2^32 it does not matter how the immediate is read. -/
theorem aluAdd_eq_ofInt (a b : Word) : aluAdd a b = BitVec.ofInt 32 (a.toInt + b.toInt) := by
  rw [BitVec.ofInt_add, BitVec.ofInt_toInt, BitVec.ofInt_toInt, aluAdd]

/-! ### The statements -/

/-- Settles O5: the four words read back, and the value of each operation in the common shape. -/
theorem addiXoriOriAndiDecodeAndWriteResult : Obligations.AddiXoriOriAndiDecodeAndWriteResult := by
  intro fp s rd rs1 i imm
  simp only [append_eq_encodeI]
  exact ⟨decode_encode_of_opcode_opImm fp (.addi rd rs1 (sext i)) (opcode_encodeI ..) (fits12_sext i),
    decode_encode_of_opcode_opImm fp (.xori rd rs1 (sext i)) (opcode_encodeI ..) (fits12_sext i),
    decode_encode_of_opcode_opImm fp (.ori rd rs1 (sext i)) (opcode_encodeI ..) (fits12_sext i),
    decode_encode_of_opcode_opImm fp (.andi rd rs1 (sext i)) (opcode_encodeI ..) (fits12_sext i),
    regImm_writesReg (aluAdd_eq_ofInt _ _), regImm_writesReg (op := aluXor) rfl,
    regImm_writesReg (op := aluOr) rfl, regImm_writesReg (op := aluAnd) rfl⟩

/-- Settles O6: the comparator's conditions are those of slt and sltu, with the immediate as second operand. -/
theorem sltiSltiuDecodeAndWriteComparison : Obligations.SltiSltiuDecodeAndWriteComparison := by
  intro fp s rd rs1 i imm
  simp only [append_eq_encodeI]
  exact ⟨decode_encode_of_opcode_opImm fp (.slti rd rs1 (sext i)) (opcode_encodeI ..) (fits12_sext i),
    decode_encode_of_opcode_opImm fp (.sltiu rd rs1 (sext i)) (opcode_encodeI ..) (fits12_sext i),
    regImm_writesReg (aluSlt_eq_zeroOne _ _), regImm_writesReg (aluSltu_eq_zeroOne _ _)⟩

end Sys2Proof.Proofs
end

section
/-! PROOFS of the load rules (spec/43_loads.md): R221, R223 and R224, encoding and effect. -/

namespace Sys2Proof.Proofs

open Sys2Proof.Machine Sys2Proof.Laws Sys2Proof.Spec

/-! ### Encoding (R111) -/

/-- Under opcode 0x03 the function codes tell the five loads apart, so each is read back from its word. -/
theorem decode_encode_of_opcode_load (fp : FencePolicy) (i : Instr) (hop : Field.opcode (encode i) = 0x03#7)
    (hwf : i.wellFormed = true) : decode fp (encode i) = .instr i := by
  cases i
  case lb | lh | lw | lbu | lhu => simp [encode, decode, decodeLoad, sext_extractLsb'_of_fits12 hwf]
  all_goals simp [encode] at hop

/-! ### Alignment (R69) -/

theorem alignFault_eq_true_iff {s : State} {n : Width} {a : Word} :
    s.alignFault n a = true ↔ s.params.dataAlign = .trap ∧ a.toNat % n.bytes ≠ 0 := by
  simp [State.alignFault, misaligned]

theorem alignFault_eq_false_iff {s : State} {n : Width} {a : Word} :
    s.alignFault n a = false ↔ s.params.dataAlign = .mask ∨ a.toNat % n.bytes = 0 := by
  cases hpolicy : s.params.dataAlign <;> simp [State.alignFault, misaligned, hpolicy]

/-! ### Effect (R220) -/

/-- Taking a failure changes the loop's state and the record alone (R304). -/
theorem raise_failed (s : State) (kind : ErrorKind) : Failed s (s.raise kind) kind :=
  have sameBytes : SameBytes s (s.raise kind) := fun _ => by rw [raise_mem]
  ⟨raise_run s kind, raise_report s kind, raise_pc s kind, fun r => raise_readReg s r kind, sameBytes,
    raise_params s kind⟩

/-- The shape of the five loads, which `exec` takes to `load` by definition, where the access is allowed: what is left to
say of each is the value it extends to. -/
theorem load_writesReg {s : State} {n : Width} {ext : Word → Word} {rd rs1 : RegIx} {imm v : Word}
    (haligned : s.alignFault n (s.effAddr rs1 imm) = false)
    (hvalue : ext (Memory.memRead s.mem (s.effAddr rs1 imm) n) = v) :
    ∃ t, s.load n ext rd rs1 imm = .next t ∧ WritesReg s t rd v (s.pc + 4#32) := by
  obtain ⟨t, hfinish, hwrites⟩ := finish_writesReg s rd v s.pcPlus4
  exact ⟨t, load_next.mpr (.inr ⟨haligned, hvalue ▸ finish_next.mp hfinish⟩), hwrites⟩

/-- The same shape where the access is not allowed. -/
theorem load_failed {s : State} {n : Width} {ext : Word → Word} {rd rs1 : RegIx} {imm : Word}
    (hfault : s.alignFault n (s.effAddr rs1 imm) = true) :
    ∃ t, s.load n ext rd rs1 imm = .next t ∧ Failed s t .unalignedAccess :=
  ⟨_, load_next.mpr (.inl ⟨hfault, rfl⟩), raise_failed s .unalignedAccess⟩

/-! ### The lane that is read (R67) -/

theorem laneShift_eq_mod (a : Word) : laneShift a = 8 * (a.toNat % 4) := by
  rw [laneShift, BitVec.toNat_and]
  exact congrArg (8 * ·) (Nat.and_two_pow_sub_one_eq_mod a.toNat 2)

/-- Shifting a field down and masking it leaves the field, zero-extended. -/
theorem ushiftRight_and_allOnes (w : Word) (d n : Nat) :
    (w >>> d) &&& zext (BitVec.allOnes n) = zext (w.extractLsb' d n) := by
  refine field_ext fun k hk => ?_
  rw [BitVec.getLsbD_and, BitVec.getLsbD_ushiftRight, getLsbD_zext _ hk, getLsbD_zext _ hk]
  by_cases hlt : k < n <;> simp [hlt]

/-- `MemRead(a, 1)` is the byte at `a`, wherever in its word it lies. -/
theorem memRead_byte (m : Memory) (a : Word) : Memory.memRead m a .byte = zext (Memory.readByte m a) := by
  have mask : Width.mask .byte = zext (BitVec.allOnes 8) := by decide
  rw [Memory.memRead, mask, ushiftRight_and_allOnes, laneShift_eq_mod, readByte_eq_byteOf_wordRead, byteOf]

/-- The word port reads the word of an address with its low two bits cleared, as `wordAt` writes it. -/
theorem memRead_word_eq_wordAt (s : State) (a : Word) : Memory.memRead s.mem a .word = wordAt s a := by
  have mask : ~~~3#32 = 0xFFFFFFFC#32 := by decide
  rw [Memory.memRead, Memory.wordRead, wordAddr, mask]
  rfl

/-! ### Extension (R221, R224) -/

/-- The low bits of a zero-extended value are the value. -/
theorem extractLsb'_zext {n : Nat} (v : BitVec n) (hle : n ≤ 32) : (zext v).extractLsb' 0 n = v := by
  refine field_ext fun k hk => ?_
  rw [BitVec.getLsbD_extractLsb', decide_eq_true hk, Bool.true_and, Nat.zero_add, getLsbD_zext v (hk.trans_le hle),
    if_pos hk]

theorem extendByteSigned_memRead (m : Memory) (a : Word) :
    extendByteSigned (Memory.memRead m a .byte) = BitVec.ofInt 32 (Memory.readByte m a).toInt := by
  rw [extendByteSigned, memRead_byte, extractLsb'_zext _ (by decide), sext, BitVec.signExtend]

theorem extendByteUnsigned_memRead (m : Memory) (a : Word) :
    extendByteUnsigned (Memory.memRead m a .byte) = BitVec.ofNat 32 (Memory.readByte m a).toNat := by
  rw [extendByteUnsigned, memRead_byte, extractLsb'_zext _ (by decide), zext, BitVec.ofNat_toNat]

/-! ### The statements -/

/-- Settles O8: no byte access is misaligned, and the lane that is extended holds the byte at the address. -/
theorem byteLoadsDecodeAndExtendTheByte : Obligations.ByteLoadsDecodeAndExtendTheByte := by
  intro fp s rd rs1 i imm
  simp only [append_eq_encodeI]
  exact ⟨decode_encode_of_opcode_load fp (.lb rd rs1 (sext i)) (opcode_encodeI ..) (fits12_sext i),
    decode_encode_of_opcode_load fp (.lbu rd rs1 (sext i)) (opcode_encodeI ..) (fits12_sext i),
    load_writesReg (alignFault_byte _) (extendByteSigned_memRead _ _),
    load_writesReg (alignFault_byte _) (extendByteUnsigned_memRead _ _)⟩

/-- Settles O10: the two clauses are the two values of `alignFault` for a word access. -/
theorem wordLoadDecodesAndReadsTheAlignedWordOrFails :
    Obligations.WordLoadDecodesAndReadsTheAlignedWordOrFails := by
  intro fp s rd rs1 i imm
  simp only [append_eq_encodeI]
  exact ⟨decode_encode_of_opcode_load fp (.lw rd rs1 (sext i)) (opcode_encodeI ..) (fits12_sext i),
    fun haligned => load_writesReg (ext := extendWord) (alignFault_eq_false_iff.mpr haligned)
      (memRead_word_eq_wordAt s _),
    fun htrap hmisaligned => load_failed (alignFault_eq_true_iff.mpr ⟨htrap, hmisaligned⟩)⟩

end Sys2Proof.Proofs
end

section
/-! PROOFS of the store rules (spec/44_stores.md): R241 and R243, encoding and effect. -/

namespace Sys2Proof.Proofs

open Sys2Proof.Machine Sys2Proof.Laws Sys2Proof.Spec

/-! ### The S-immediate in its word (R101, R103) -/

@[simp] theorem immS_encodeS (imm : Word) (rs2 rs1 : RegIx) (f3 : BitVec 3) (opc : BitVec 7) :
    Field.immS (encodeS imm rs2 rs1 f3 opc) = sext (imm.extractLsb' 0 12) := by
  refine congrArg sext (field_ext fun k hk => ?_)
  simp only [encodeS, BitVec.getLsbD_extractLsb', BitVec.getLsbD_append]
  interval_cases k <;> simp

/-- A word laid out with the two immediate fields of a store is the encoding of the sign extension of both together. -/
theorem append_eq_encodeS (hi : BitVec 7) (rs2 rs1 : RegIx) (f3 : BitVec 3) (lo : BitVec 5) (opc : BitVec 7) :
    hi ++ rs2 ++ rs1 ++ f3 ++ lo ++ opc = encodeS (sext (hi ++ lo)) rs2 rs1 f3 opc := by
  have high : (sext (hi ++ lo)).extractLsb' 5 7 = hi := by
    refine field_ext fun k hk => ?_
    rw [BitVec.getLsbD_extractLsb', getLsbD_sext _ (by omega), BitVec.getLsbD_append]
    simp [hk, show 5 + k < 12 by omega]
  have low : (sext (hi ++ lo)).extractLsb' 0 5 = lo := by
    refine field_ext fun k hk => ?_
    rw [BitVec.getLsbD_extractLsb', getLsbD_sext _ (by omega), BitVec.getLsbD_append]
    simp [hk, show k < 12 by omega]
  rw [encodeS, high, low]

/-! ### Encoding (R111) -/

/-- Under opcode 0x23 the function codes tell the three stores apart, so each is read back from its word. -/
theorem decode_encode_of_opcode_store (fp : FencePolicy) (i : Instr) (hop : Field.opcode (encode i) = 0x23#7)
    (hwf : i.wellFormed = true) : decode fp (encode i) = .instr i := by
  cases i
  case sb | sh | sw => simp [encode, decode, decodeStore, sext_extractLsb'_of_fits12 hwf]
  all_goals simp [encode] at hop

/-! ### Effect (R240) -/

/-- The shape of the three stores, which `exec` takes to `store` by definition, where the access is allowed: what is
left to say of each is the bytes of the memory it writes. -/
theorem store_writesBytes {s : State} {n : Width} {rs1 rs2 : RegIx} {imm : Word} {byteAt : Word → Byte}
    (haligned : s.alignFault n (s.effAddr rs1 imm) = false)
    (hbytes : ∀ a, Memory.readByte (Memory.memWrite s.mem (s.effAddr rs1 imm) n (s.readReg rs2)) a = byteAt a) :
    ∃ t, s.store n rs1 rs2 imm = .next t ∧ WritesBytes s t byteAt :=
  ⟨_, store_next.mpr (.inr ⟨haligned, rfl⟩), hbytes, rfl,
    fun r => withMemPc_readReg s r s.pcPlus4 _, rfl, rfl, rfl⟩

/-- The same shape where the access is not allowed. -/
theorem store_failed {s : State} {n : Width} {rs1 rs2 : RegIx} {imm : Word}
    (hfault : s.alignFault n (s.effAddr rs1 imm) = true) :
    ∃ t, s.store n rs1 rs2 imm = .next t ∧ Failed s t .unalignedAccess :=
  ⟨_, store_next.mpr (.inl ⟨hfault, rfl⟩), raise_failed s .unalignedAccess⟩

/-! ### The lane that is written (R68) -/

/-- The word a sub-word store writes back: the low bits of `v` that `mask` selects, put into `w` at place `d`. -/
def mergeLane (w v mask : Word) (d : Nat) : Word :=
  (w &&& ~~~(mask <<< d)) ||| (((v &&& mask) <<< d) &&& (mask <<< d))

theorem laneWrite_eq_wordWrite_mergeLane (m : Memory) (a : Word) (n : Width) (v : Word) :
    Memory.laneWrite m a n v = Memory.wordWrite m a (mergeLane (Memory.wordRead m a) v n.mask (laneShift a)) := rfl

/-- Under a mask of `n` ones the bits from place `d` up are the low `n` bits of `v`, and every other bit stays. -/
theorem getLsbD_mergeLane (w v : Word) (d n : Nat) {j : Nat} (hj : j < 32) :
    (mergeLane w v (zext (BitVec.allOnes n)) d).getLsbD j =
      if d ≤ j ∧ j < d + n then v.getLsbD (j - d) else w.getLsbD j := by
  have mask : (zext (BitVec.allOnes n) <<< d).getLsbD j = decide (d ≤ j ∧ j < d + n) := by
    rw [BitVec.getLsbD_shiftLeft, getLsbD_zext _ (by omega), Bool.eq_iff_iff]
    by_cases hlow : d ≤ j
    · simp [hj, hlow, Nat.sub_lt_iff_lt_add' hlow]
    · simp [hlow, Nat.lt_of_not_le hlow]
  rw [mergeLane, BitVec.shiftLeft_and_distrib, BitVec.and_assoc, BitVec.and_self, BitVec.getLsbD_or,
    BitVec.getLsbD_and, BitVec.getLsbD_and, BitVec.getLsbD_not, mask, BitVec.getLsbD_shiftLeft]
  by_cases hin : d ≤ j ∧ j < d + n
  · simp [hj, hin]
  · simp [hj, hin]

/-- The merge of a byte store replaces the byte in the address's lane. -/
theorem byteOf_mergeLane_byte (w v a : Word) {k : Nat} (hk : k < 4) :
    byteOf (mergeLane w v (Width.mask .byte) (laneShift a)) k =
      if k = a.toNat % 4 then v.extractLsb' 0 8 else byteOf w k := by
  have mask : Width.mask .byte = zext (BitVec.allOnes 8) := by decide
  refine field_ext fun j hj => ?_
  rw [byteOf, BitVec.getLsbD_extractLsb', decide_eq_true hj, Bool.true_and, mask, laneShift_eq_mod,
    getLsbD_mergeLane _ _ _ _ (by omega)]
  by_cases hlane : k = a.toNat % 4
  · rw [if_pos hlane, if_pos (by omega), hlane, Nat.add_sub_cancel_left]
    simp [hj]
  · rw [if_neg hlane, if_neg (by omega), byteOf]
    simp [hj]

/-- `MemWrite(a, 1, v)` writes the byte at `a`, wherever in its word it lies, and no other. -/
theorem readByte_memWrite_byte (m : Memory) (a v b : Word) :
    Memory.readByte (Memory.memWrite m a .byte v) b = if b = a then v.extractLsb' 0 8 else Memory.readByte m b := by
  have address : b = a ↔ wordAddr b = wordAddr a ∧ b.toNat % 4 = a.toNat % 4 := by
    simpa only [wordAddr_add_lane] using eq_wordAddr_add_iff a b (k := a.toNat % 4) (Nat.mod_lt _ (by decide))
  rw [Memory.memWrite, laneWrite_eq_wordWrite_mergeLane, readByte_wordWrite_eq_lane,
    byteOf_mergeLane_byte _ _ _ (Nat.mod_lt _ (by decide))]
  by_cases hword : wordAddr b = wordAddr a
  · simp only [address, hword, true_and, if_true, wordRead_congr m hword.symm, readByte_eq_byteOf_wordRead m b]
  · simp only [address, hword, false_and, if_false]

/-! ### The statements -/

/-- Settles O11: no byte access is misaligned, and the merge writes the byte at the address alone. -/
theorem byteStoreDecodesAndReplacesOneByte : Obligations.ByteStoreDecodesAndReplacesOneByte := by
  intro fp s rs1 rs2 hi lo imm
  rw [append_eq_encodeS]
  exact ⟨decode_encode_of_opcode_store fp (.sb rs1 rs2 (sext (hi ++ lo))) (opcode_encodeS ..) (fits12_sext _),
    store_writesBytes (alignFault_byte _) (readByte_memWrite_byte s.mem _ _)⟩

/-- Settles O13: the two clauses are the two values of `alignFault` for a word access, and `MemWrite(ea, 4)` is the word
port. -/
theorem wordStoreDecodesAndReplacesTheAlignedWordOrFails :
    Obligations.WordStoreDecodesAndReplacesTheAlignedWordOrFails := by
  intro fp s rs1 rs2 hi lo imm
  rw [append_eq_encodeS]
  exact ⟨decode_encode_of_opcode_store fp (.sw rs1 rs2 (sext (hi ++ lo))) (opcode_encodeS ..) (fits12_sext _),
    fun haligned => store_writesBytes (alignFault_eq_false_iff.mpr haligned) (readByte_wordWrite_eq_lane s.mem _ _),
    fun htrap hmisaligned => store_failed (alignFault_eq_true_iff.mpr ⟨htrap, hmisaligned⟩)⟩

end Sys2Proof.Proofs
end

section
/-! PROOFS of the branch rules (spec/45_branches.md): R261 to R266, encoding and effect. -/

namespace Sys2Proof.Proofs

open Sys2Proof.Machine Sys2Proof.Laws Sys2Proof.Spec

/-! ### The B-immediate in its word (R101, R104) -/

@[simp] theorem immB_encodeB (imm : Word) (rs2 rs1 : RegIx) (f3 : BitVec 3) (opc : BitVec 7) :
    Field.immB (encodeB imm rs2 rs1 f3 opc) = sext (imm.extractLsb' 1 12 ++ 0#1) := by
  refine congrArg sext (field_ext fun k hk => ?_)
  simp only [encodeB, BitVec.getLsbD_extractLsb', BitVec.getLsbD_append]
  interval_cases k <;> simp

/-- Inside the field the extension changes no bits. -/
theorem extractLsb'_sext_of_le {n : Nat} (v : BitVec n) {d m : Nat} (hfield : d + m ≤ n) (hword : n ≤ 32) :
    (sext v).extractLsb' d m = v.extractLsb' d m := by
  refine field_ext fun k hk => ?_
  rw [BitVec.getLsbD_extractLsb', BitVec.getLsbD_extractLsb', getLsbD_sext v (by omega), if_pos (by omega)]

/-- A word laid out with the four immediate fields of a branch is the encoding of the sign extension of the offset they
make up. -/
theorem append_eq_encodeB (b12 b11 : BitVec 1) (b10 : BitVec 6) (b4 : BitVec 4) (rs2 rs1 : RegIx) (f3 : BitVec 3)
    (opc : BitVec 7) :
    b12 ++ b10 ++ rs2 ++ rs1 ++ f3 ++ b4 ++ b11 ++ opc =
      encodeB (sext (b12 ++ b11 ++ b10 ++ b4 ++ 0#1)) rs2 rs1 f3 opc := by
  rw [encodeB]
  simp (disch := decide) only [extractLsb'_sext_of_le, BitVec.extractLsb'_append_eq_of_le,
    BitVec.extractLsb'_append_eq_of_add_le, BitVec.extractLsb'_eq_self, Nat.reduceSub]

theorem fits13Even_sext (i : BitVec 12) : Imm.fits13Even (sext (i ++ 0#1)) = true := by
  obtain ⟨low, high⟩ := toInt_sext_append_zero_bounds i (by decide)
  have even : (sext (i ++ 0#1)).getLsbD 0 = false := by
    rw [getLsbD_sext _ (by decide), BitVec.getLsbD_append]
    simp
  simp only [Imm.fits13Even, even, Bool.not_false, Bool.and_true, Bool.and_eq_true, decide_eq_true_eq]
  exact ⟨low, high⟩

/-- A word in the two's complement range of `n` bits is the extension of its low `n` bits. -/
theorem sext_extractLsb'_of_bounds {n : Nat} {w : Word} (hpos : 0 < n) (hle : n ≤ 32)
    (low : -2 ^ (n - 1) ≤ w.toInt) (high : w.toInt ≤ 2 ^ (n - 1) - 1) : sext (w.extractLsb' 0 n) = w := by
  have double : 2 ^ n = 2 * 2 ^ (n - 1) := by rw [← pow_succ', Nat.sub_add_cancel hpos]
  rw [← BitVec.toInt_inj, toInt_sext _ hle, BitVec.toInt_extractLsb', Nat.shiftRight_zero]
  calc (w.toNat : Int).bmod (2 ^ n)
    _ = w.toInt.bmod (2 ^ n) := by rw [BitVec.toInt_eq_toNat_bmod, Int.bmod_bmod_of_dvd (pow_dvd_pow 2 hle)]
    _ = w.toInt := Int.bmod_eq_of_le (by rw [double]; push_cast; omega) (by rw [double]; push_cast; omega)

/-- Of an even word the low bit need not be kept. -/
theorem extractLsb'_one_append_zero {w : Word} (n : Nat) (heven : w.getLsbD 0 = false) :
    w.extractLsb' 1 n ++ 0#1 = w.extractLsb' 0 (n + 1) := by
  have low : w.extractLsb' 0 1 = 0#1 := by
    refine field_ext fun k hk => ?_
    rw [Nat.lt_one_iff.mp hk, BitVec.getLsbD_extractLsb', Nat.add_zero, heven, Bool.and_false, BitVec.getLsbD_zero]
  rw [← low]
  exact BitVec.extractLsb'_append_extractLsb'_eq_extractLsb' rfl

/-- A branch offset in range is even and fits in 13 bits, so none of it is lost in the word. -/
theorem sext_append_zero_of_fits13Even {imm : Word} (hfits : Imm.fits13Even imm = true) :
    sext (imm.extractLsb' 1 12 ++ 0#1) = imm := by
  obtain ⟨⟨low, high⟩, even⟩ : (-4096 ≤ imm.toInt ∧ imm.toInt ≤ 4094) ∧ imm.getLsbD 0 = false := by
    simpa [Imm.fits13Even] using hfits
  rw [extractLsb'_one_append_zero 12 even]
  exact sext_extractLsb'_of_bounds (by decide) (by decide) low (high.trans (by decide))

/-! ### Encoding (R111) -/

/-- Under opcode 0x63 the function codes tell the six branches apart, so each is read back from its word. -/
theorem decode_encode_of_opcode_branch (fp : FencePolicy) (i : Instr) (hop : Field.opcode (encode i) = 0x63#7)
    (hwf : i.wellFormed = true) : decode fp (encode i) = .instr i := by
  cases i
  case beq | bne | blt | bge | bltu | bgeu =>
    simp [encode, decode, decodeBranch, sext_append_zero_of_fits13Even hwf]
  all_goals simp [encode] at hop

/-! ### Effect (R260) -/

theorem setPc_writesPc (s : State) (next : Word) : WritesPc s (s.setPc next) next :=
  have sameBytes : SameBytes s (s.setPc next) := fun _ => by rw [setPc_mem]
  ⟨setPc_pc s next, fun r => setPc_readReg s r next, sameBytes, setPc_run s next, setPc_report s next, setPc_params s next⟩

/-- The shape of the six branches, which `exec` takes to `branch` by definition: what is left to say of each is what its
condition `cond` tests. -/
theorem branch_writesPc {s : State} {cond : Word → Word → Bool} {rs1 rs2 : RegIx} {imm : Word} {p : Prop} [Decidable p]
    (hcond : cond (s.readReg rs1) (s.readReg rs2) = true ↔ p) :
    ∃ t, s.branch cond rs1 rs2 imm = .next t ∧ WritesPc s t (if p then s.pc + imm else s.pc + 4#32) := by
  by_cases htaken : p
  · rw [if_pos htaken]
    exact ⟨_, branch_next.mpr (.inl ⟨hcond.mpr htaken, rfl⟩), setPc_writesPc s (s.pcTarget imm)⟩
  · rw [if_neg htaken]
    exact ⟨_, branch_next.mpr (.inr ⟨Bool.eq_false_iff.mpr (mt hcond.mp htaken), rfl⟩), setPc_writesPc s s.pcPlus4⟩

/-- The same shape for a condition that tests the opposite of `p`. -/
theorem branch_writesPc_of_not {s : State} {cond : Word → Word → Bool} {rs1 rs2 : RegIx} {imm : Word} {p : Prop}
    [Decidable p] (hcond : cond (s.readReg rs1) (s.readReg rs2) = true ↔ ¬ p) :
    ∃ t, s.branch cond rs1 rs2 imm = .next t ∧ WritesPc s t (if p then s.pc + 4#32 else s.pc + imm) := by
  rw [← ite_not]
  exact branch_writesPc hcond

/-! ### The conditions as comparisons of numbers (R261 to R266) -/

theorem condEq_eq_true_iff (a b : Word) : condEq a b = true ↔ a = b := decide_eq_true_iff

theorem condNe_eq_true_iff (a b : Word) : condNe a b = true ↔ ¬ a = b := decide_eq_true_iff

theorem ltSigned_eq_true_iff (a b : Word) : ltSigned a b = true ↔ a.toInt < b.toInt := BitVec.slt_iff_toInt_lt

theorem ltUnsigned_eq_true_iff (a b : Word) : ltUnsigned a b = true ↔ a.toNat < b.toNat := BitVec.ult_iff_toNat_lt

theorem geSigned_eq_true_iff (a b : Word) : geSigned a b = true ↔ ¬ a.toInt < b.toInt := by
  rw [← ltSigned_eq_true_iff, geSigned, Bool.not_eq_true', Bool.not_eq_true]

theorem geUnsigned_eq_true_iff (a b : Word) : geUnsigned a b = true ↔ ¬ a.toNat < b.toNat := by
  rw [← ltUnsigned_eq_true_iff, geUnsigned, Bool.not_eq_true', Bool.not_eq_true]

/-! ### The statements -/

/-- Settles O15: the two words read back, and the two conditions are equality and its negation. -/
theorem equalityBranchesDecodeAndBranchExactlyWhenTheConditionHolds :
    Obligations.EqualityBranchesDecodeAndBranchExactlyWhenTheConditionHolds := by
  intro fp s rs1 rs2 b12 b11 b10 b4 imm
  simp only [append_eq_encodeB]
  have hfits := fits13Even_sext (b12 ++ b11 ++ b10 ++ b4)
  exact ⟨decode_encode_of_opcode_branch fp (.beq rs1 rs2 _) (opcode_encodeB ..) hfits,
    decode_encode_of_opcode_branch fp (.bne rs1 rs2 _) (opcode_encodeB ..) hfits,
    branch_writesPc (condEq_eq_true_iff _ _), branch_writesPc_of_not (condNe_eq_true_iff _ _)⟩

/-- Settles O16: bge and bgeu test the opposite of what blt and bltu do, so their two targets change places. -/
theorem orderBranchesDecodeAndBranchExactlyWhenTheConditionHolds :
    Obligations.OrderBranchesDecodeAndBranchExactlyWhenTheConditionHolds := by
  intro fp s rs1 rs2 b12 b11 b10 b4 imm
  simp only [append_eq_encodeB]
  have hfits := fits13Even_sext (b12 ++ b11 ++ b10 ++ b4)
  exact ⟨decode_encode_of_opcode_branch fp (.blt rs1 rs2 _) (opcode_encodeB ..) hfits,
    decode_encode_of_opcode_branch fp (.bge rs1 rs2 _) (opcode_encodeB ..) hfits,
    decode_encode_of_opcode_branch fp (.bltu rs1 rs2 _) (opcode_encodeB ..) hfits,
    decode_encode_of_opcode_branch fp (.bgeu rs1 rs2 _) (opcode_encodeB ..) hfits,
    branch_writesPc (ltSigned_eq_true_iff _ _), branch_writesPc_of_not (geSigned_eq_true_iff _ _),
    branch_writesPc (ltUnsigned_eq_true_iff _ _), branch_writesPc_of_not (geUnsigned_eq_true_iff _ _)⟩

end Sys2Proof.Proofs
end

section
/-! PROOFS of the jump rules (spec/46_jumps.md): R281, encoding and effect. -/

namespace Sys2Proof.Proofs

open Sys2Proof.Machine Sys2Proof.Laws Sys2Proof.Spec

/-! ### The J-immediate in its word (R101, R106) -/

@[simp] theorem immJ_encodeJ (imm : Word) (rd : RegIx) (opc : BitVec 7) :
    Field.immJ (encodeJ imm rd opc) = sext (imm.extractLsb' 1 20 ++ 0#1) := by
  refine congrArg sext (field_ext fun k hk => ?_)
  simp only [encodeJ, BitVec.getLsbD_extractLsb', BitVec.getLsbD_append]
  interval_cases k <;> simp

/-- A word laid out with the four immediate fields of `jal` is the encoding of the sign extension of the offset they make
up. -/
theorem append_eq_encodeJ (b20 b11 : BitVec 1) (b10 : BitVec 10) (b19 : BitVec 8) (rd : RegIx) (opc : BitVec 7) :
    b20 ++ b10 ++ b11 ++ b19 ++ rd ++ opc = encodeJ (sext (b20 ++ b19 ++ b11 ++ b10 ++ 0#1)) rd opc := by
  rw [encodeJ]
  simp (disch := decide) only [extractLsb'_sext_of_le, BitVec.extractLsb'_append_eq_of_le,
    BitVec.extractLsb'_append_eq_of_add_le, BitVec.extractLsb'_eq_self, Nat.reduceSub]

theorem fits21Even_iff (imm : Word) :
    Imm.fits21Even imm = true ↔ (-1048576 ≤ imm.toInt ∧ imm.toInt ≤ 1048574) ∧ imm.getLsbD 0 = false := by
  simp [Imm.fits21Even]

theorem fits21Even_sext (i : BitVec 20) : Imm.fits21Even (sext (i ++ 0#1)) = true := by
  have even : (sext (i ++ 0#1)).getLsbD 0 = false := by
    rw [getLsbD_sext _ (by decide), BitVec.getLsbD_append]
    simp
  exact (fits21Even_iff _).mpr ⟨toInt_sext_append_zero_bounds i (by decide), even⟩

/-- A `jal` offset in range is even and fits in 21 bits, so none of it is lost in the word. -/
theorem sext_append_zero_of_fits21Even {imm : Word} (hfits : Imm.fits21Even imm = true) :
    sext (imm.extractLsb' 1 20 ++ 0#1) = imm := by
  obtain ⟨⟨low, high⟩, even⟩ := (fits21Even_iff imm).mp hfits
  rw [extractLsb'_one_append_zero 20 even]
  exact sext_extractLsb'_of_bounds (by decide) (by decide) low (high.trans (by decide))

/-! ### Encoding (R111) -/

/-- Opcode 0x6F is that of `jal` alone: no function code is read. -/
theorem decode_encode_jal (fp : FencePolicy) (rd : RegIx) {imm : Word} (hfits : Imm.fits21Even imm = true) :
    decode fp (encode (.jal rd imm)) = .instr (.jal rd imm) := by
  simp [encode, decode, sext_append_zero_of_fits21Even hfits]

/-! ### The statements -/

/-- Settles O17: the word read back, and the frame of `finish` with the link as its value and the target as the next pc. -/
theorem jalDecodesLinksAndJumps : Obligations.JalDecodesLinksAndJumps := by
  intro fp s rd b20 b11 b10 b19 imm
  rw [append_eq_encodeJ]
  exact ⟨decode_encode_jal fp rd (fits21Even_sext (b20 ++ b19 ++ b11 ++ b10)),
    finish_writesReg s rd s.pcPlus4 (s.pcTarget imm)⟩

end Sys2Proof.Proofs
end

section
/-! PROOFS of the upper-immediate rules (spec/47_upper_immediate.md): R291 and R292, encoding and effect. -/

namespace Sys2Proof.Proofs

open Sys2Proof.Machine Sys2Proof.Laws Sys2Proof.Spec

/-! ### The U-immediate in its word (R101, R105) -/

/-- The encoder puts the 20 bits where they stand in the immediate, so the immediate of the word is that of `imm`. -/
@[simp] theorem immU_encodeU (imm : Word) (rd : RegIx) (opc : BitVec 7) :
    Field.immU (encodeU imm rd opc) = Field.immU imm := by
  refine congrArg (· ++ 0#12) ?_
  rw [encodeU, BitVec.extractLsb'_append_eq_of_le (by decide), BitVec.extractLsb'_append_eq_of_le (by decide)]
  exact BitVec.extractLsb'_eq_self

/-- A word laid out with the 20 bits `u` is the encoding of `u` with twelve zeros below it. -/
theorem append_eq_encodeU (u : BitVec 20) (rd : RegIx) (opc : BitVec 7) :
    u ++ rd ++ opc = encodeU (u ++ 0#12) rd opc := by
  have upper : (u ++ 0#12).extractLsb' 12 20 = u := by
    rw [BitVec.extractLsb'_append_eq_of_le (by decide), BitVec.extractLsb'_eq_self]
  rw [encodeU, upper]

theorem append_zero_eq_ofNat_mul (u : BitVec 20) : u ++ 0#12 = BitVec.ofNat 32 (u.toNat * 4096) := by
  refine BitVec.eq_of_toNat_eq ?_
  rw [BitVec.toNat_append, BitVec.toNat_ofNat, BitVec.toNat_ofNat, Nat.zero_mod, Nat.or_zero, Nat.shiftLeft_eq]
  omega

theorem lowClear_append_zero (u : BitVec 20) : Imm.lowClear (u ++ 0#12) = true := by
  have mask : 0xFFF#32 = 0#20 ++ BitVec.allOnes 12 := by decide
  have low : (u ++ 0#12) &&& 0xFFF#32 = 0#32 := by
    rw [mask, BitVec.and_append, BitVec.and_zero, BitVec.zero_and]
    decide
  exact decide_eq_true low

/-- Twelve clear bits are what the mask of `immU` would clear, so none of the immediate is lost in the word. -/
theorem immU_eq_self_of_lowClear {imm : Word} (hclear : Imm.lowClear imm = true) : Field.immU imm = imm := by
  have low : imm &&& 0xFFF#32 = 0#32 := of_decide_eq_true hclear
  have masks : 0xFFFFF000#32 ||| 0xFFF#32 = BitVec.allOnes 32 := by decide
  calc Field.immU imm
    _ = imm &&& 0xFFFFF000#32 ||| imm &&& 0xFFF#32 := by rw [immU_eq_and_mask, low, BitVec.or_zero]
    _ = imm := by rw [← BitVec.and_or_distrib_left, masks, BitVec.and_allOnes]

/-! ### Encoding (R111) -/

/-- Opcodes 0x37 and 0x17 are those of `lui` and `auipc` alone: no function code is read. -/
theorem decode_encode_lui (fp : FencePolicy) (rd : RegIx) {imm : Word} (hclear : Imm.lowClear imm = true) :
    decode fp (encode (.lui rd imm)) = .instr (.lui rd imm) := by
  simp [encode, decode, immU_eq_self_of_lowClear hclear]

theorem decode_encode_auipc (fp : FencePolicy) (rd : RegIx) {imm : Word} (hclear : Imm.lowClear imm = true) :
    decode fp (encode (.auipc rd imm)) = .instr (.auipc rd imm) := by
  simp [encode, decode, immU_eq_self_of_lowClear hclear]

/-! ### The statements -/

/-- Settles O19: the two words read back, and the frame of `finish` with the immediate, or pc plus it, as the value. -/
theorem luiAuipcDecodeAndWriteUpperImmediate : Obligations.LuiAuipcDecodeAndWriteUpperImmediate := by
  intro fp s rd u imm
  rw [← append_zero_eq_ofNat_mul, append_eq_encodeU, append_eq_encodeU]
  have hclear := lowClear_append_zero u
  exact ⟨decode_encode_lui fp rd hclear, decode_encode_auipc fp rd hclear,
    finish_writesReg s rd imm s.pcPlus4, finish_writesReg s rd (s.pcTarget imm) s.pcPlus4⟩

end Sys2Proof.Proofs
end

section
/-! PROOFS of the encoding rules (spec/30_encoding.md): R110 to R116, dispatch, the round trips, the table. -/

namespace Sys2Proof.Proofs

open Sys2Proof.Laws

/-! ### Dispatch: the decoder's equation for each opcode (R111 to R113) -/

section

variable (fp : FencePolicy) {w : Word}

theorem decode_of_opcode_op (hop : Field.opcode w = 0x33#7) : decode fp w = decodeOp w := by simp [decode, hop]

theorem decode_of_opcode_opImm (hop : Field.opcode w = 0x13#7) : decode fp w = decodeOpImm w := by simp [decode, hop]

theorem decode_of_opcode_load (hop : Field.opcode w = 0x03#7) : decode fp w = decodeLoad w := by simp [decode, hop]

theorem decode_of_opcode_store (hop : Field.opcode w = 0x23#7) : decode fp w = decodeStore w := by simp [decode, hop]

theorem decode_of_opcode_branch (hop : Field.opcode w = 0x63#7) : decode fp w = decodeBranch w := by simp [decode, hop]

theorem decode_of_opcode_lui (hop : Field.opcode w = 0x37#7) :
    decode fp w = .instr (.lui (Field.rd w) (Field.immU w)) := by simp [decode, hop]

theorem decode_of_opcode_auipc (hop : Field.opcode w = 0x17#7) :
    decode fp w = .instr (.auipc (Field.rd w) (Field.immU w)) := by simp [decode, hop]

theorem decode_of_opcode_jal (hop : Field.opcode w = 0x6F#7) :
    decode fp w = .instr (.jal (Field.rd w) (Field.immJ w)) := by simp [decode, hop]

theorem decode_of_opcode_jalr (hop : Field.opcode w = 0x67#7) : decode fp w = decodeJalr w := by simp [decode, hop]

theorem decode_of_opcode_miscMem (hop : Field.opcode w = 0x0F#7) : decode fp w = decodeMiscMem fp w := by
  simp [decode, hop]

end

/-- The opcodes of the nine instruction families (R108). -/
def supportedOpcodes : List (BitVec 7) := [0x33#7, 0x13#7, 0x03#7, 0x23#7, 0x63#7, 0x37#7, 0x17#7, 0x6F#7, 0x67#7]

theorem decode_of_opcode_unsupported (fp : FencePolicy) {w : Word} (hop : Field.opcode w ∉ supportedOpcodes)
    (hmisc : Field.opcode w ≠ 0x0F#7) : decode fp w = .unknown .opcode w := by
  simp only [supportedOpcodes, List.mem_cons, List.not_mem_nil, or_false, not_or] at hop
  simp [decode, hop, hmisc]

/-- The families the opcode tells apart: one of the nine, MISC-MEM, or none. -/
theorem opcode_cases (opc : BitVec 7) :
    (opc = 0x33#7 ∨ opc = 0x13#7 ∨ opc = 0x03#7 ∨ opc = 0x23#7 ∨ opc = 0x63#7 ∨ opc = 0x37#7 ∨ opc = 0x17#7 ∨
      opc = 0x6F#7 ∨ opc = 0x67#7) ∨ opc = 0x0F#7 ∨ opc ∉ supportedOpcodes ∧ opc ≠ 0x0F#7 := by
  simp only [supportedOpcodes, List.mem_cons, List.not_mem_nil, or_false]
  tauto

theorem funct3_cases (f3 : BitVec 3) :
    f3 = 0#3 ∨ f3 = 1#3 ∨ f3 = 2#3 ∨ f3 = 3#3 ∨ f3 = 4#3 ∨ f3 = 5#3 ∨ f3 = 6#3 ∨ f3 = 7#3 := by
  revert f3
  decide

/-! ### Decode of encode -/

/-- Under opcode 0x67 only `jalr` is encoded. -/
theorem decode_encode_jalr (fp : FencePolicy) (rd rs1 : RegIx) {imm : Word} (hfits : Imm.fits12 imm = true) :
    decode fp (encode (.jalr rd rs1 imm)) = .instr (.jalr rd rs1 imm) := by
  simp [encode, decode, decodeJalr, sext_extractLsb'_of_fits12 hfits]

/-- Settles O26, family by family. -/
theorem decodeOfEncodeIsTheInstruction : Obligations.DecodeOfEncodeIsTheInstruction := by
  intro fp i hwf
  cases i
  case add | sub | sll | slt | sltu | xor | srl | sra | or | and =>
    exact decode_encode_of_opcode_op fp _ (opcode_encodeR ..)
  case addi | slti | sltiu | xori | ori | andi => exact decode_encode_of_opcode_opImm fp _ (opcode_encodeI ..) hwf
  case slli | srli | srai => exact decode_encode_of_opcode_opImm fp _ (opcode_encodeR ..) hwf
  case lb | lh | lw | lbu | lhu => exact decode_encode_of_opcode_load fp _ (opcode_encodeI ..) hwf
  case sb | sh | sw => exact decode_encode_of_opcode_store fp _ (opcode_encodeS ..) hwf
  case beq | bne | blt | bge | bltu | bgeu => exact decode_encode_of_opcode_branch fp _ (opcode_encodeB ..) hwf
  case jal => exact decode_encode_jal fp _ hwf
  case jalr => exact decode_encode_jalr fp _ _ hwf
  case lui => exact decode_encode_lui fp _ hwf
  case auipc => exact decode_encode_auipc fp _ hwf

/-! ### A word from its fields (R101) -/

section

variable (w : Word)

theorem encodeR_fields :
    encodeR (Field.funct7 w) (Field.rs2 w) (Field.rs1 w) (Field.funct3 w) (Field.rd w) (Field.opcode w) = w := by
  simp (disch := decide) only [encodeR, Field.funct7, Field.rs2, Field.rs1, Field.funct3, Field.rd, Field.opcode,
    BitVec.extractLsb'_append_extractLsb'_eq_extractLsb', BitVec.extractLsb'_eq_self]

theorem encodeI_fields : encodeI (Field.immI w) (Field.rs1 w) (Field.funct3 w) (Field.rd w) (Field.opcode w) = w := by
  rw [Field.immI, ← append_eq_encodeI]
  simp (disch := decide) only [Field.rs1, Field.funct3, Field.rd, Field.opcode,
    BitVec.extractLsb'_append_extractLsb'_eq_extractLsb', BitVec.extractLsb'_eq_self]

/-- The two immediate fields of a store stand where an R-type word has funct7 and rd. -/
theorem encodeS_fields : encodeS (Field.immS w) (Field.rs2 w) (Field.rs1 w) (Field.funct3 w) (Field.opcode w) = w := by
  rw [Field.immS, ← append_eq_encodeS]
  exact encodeR_fields w

theorem encodeB_fields : encodeB (Field.immB w) (Field.rs2 w) (Field.rs1 w) (Field.funct3 w) (Field.opcode w) = w := by
  rw [Field.immB, ← append_eq_encodeB]
  simp (disch := decide) only [Field.rs2, Field.rs1, Field.funct3, Field.opcode,
    BitVec.extractLsb'_append_extractLsb'_eq_extractLsb', BitVec.extractLsb'_eq_self]

theorem encodeU_fields : encodeU (Field.immU w) (Field.rd w) (Field.opcode w) = w := by
  rw [Field.immU, ← append_eq_encodeU]
  simp (disch := decide) only [Field.rd, Field.opcode,
    BitVec.extractLsb'_append_extractLsb'_eq_extractLsb', BitVec.extractLsb'_eq_self]

theorem encodeJ_fields : encodeJ (Field.immJ w) (Field.rd w) (Field.opcode w) = w := by
  rw [Field.immJ, ← append_eq_encodeJ]
  simp (disch := decide) only [Field.rd, Field.opcode,
    BitVec.extractLsb'_append_extractLsb'_eq_extractLsb', BitVec.extractLsb'_eq_self]

end

/-! ### Encode of decode -/

/-- `i` is well-formed and `w` is its word. -/
def IsWordOf (w : Word) (i : Instr) : Prop := i.wellFormed = true ∧ encode i = w

section

variable {w : Word} {i : Instr} {opc f7 : BitVec 7} {f3 : BitVec 3}

theorem encodeR_of_fields (hop : Field.opcode w = opc) (hf3 : Field.funct3 w = f3) (hf7 : Field.funct7 w = f7) :
    encodeR f7 (Field.rs2 w) (Field.rs1 w) f3 (Field.rd w) opc = w := by
  rw [← hop, ← hf3, ← hf7, encodeR_fields]

theorem encodeI_of_fields (hop : Field.opcode w = opc) (hf3 : Field.funct3 w = f3) :
    encodeI (Field.immI w) (Field.rs1 w) f3 (Field.rd w) opc = w := by
  rw [← hop, ← hf3, encodeI_fields]

theorem encodeS_of_fields (hop : Field.opcode w = opc) (hf3 : Field.funct3 w = f3) :
    encodeS (Field.immS w) (Field.rs2 w) (Field.rs1 w) f3 opc = w := by
  rw [← hop, ← hf3, encodeS_fields]

theorem encodeB_of_fields (hop : Field.opcode w = opc) (hf3 : Field.funct3 w = f3) :
    encodeB (Field.immB w) (Field.rs2 w) (Field.rs1 w) f3 opc = w := by
  rw [← hop, ← hf3, encodeB_fields]

/-- With funct7 0x00 each funct3 names one instruction; with 0x20 two of them do. -/
theorem isWordOf_of_decodeOp (hop : Field.opcode w = 0x33#7) (h : decodeOp w = .instr i) : IsWordOf w i := by
  simp only [decodeOp] at h
  split_ifs at h with hf7 hf3 hf3 hf3 hf3 hf3 hf3 hf3 hsub hsra <;> cases h
  iterate 7 exact ⟨rfl, encodeR_of_fields hop hf3 hf7⟩
  · have hlast : Field.funct3 w = 7#3 := by have := funct3_cases (Field.funct3 w); tauto
    exact ⟨rfl, encodeR_of_fields hop hlast hf7⟩
  · exact ⟨rfl, encodeR_of_fields hop hsub.2 hsub.1⟩
  · exact ⟨rfl, encodeR_of_fields hop hsra.2 hsra.1⟩

/-- funct7 is read for the shifts alone; it is 0x00 but for `srai`. -/
theorem isWordOf_of_decodeOpImm (hop : Field.opcode w = 0x13#7) (h : decodeOpImm w = .instr i) : IsWordOf w i := by
  simp only [decodeOpImm] at h
  split_ifs at h with hf3 hf3 hf3 hf3 hf3 hf3 hf3 hf7 hf7 hf7 <;> cases h
  iterate 6 exact ⟨fits12_sext _, encodeI_of_fields hop hf3⟩
  · exact ⟨rfl, encodeR_of_fields hop hf3 hf7⟩
  all_goals
    have hlast : Field.funct3 w = 5#3 := by have := funct3_cases (Field.funct3 w); tauto
    exact ⟨rfl, encodeR_of_fields hop hlast hf7⟩

theorem isWordOf_of_decodeLoad (hop : Field.opcode w = 0x03#7) (h : decodeLoad w = .instr i) : IsWordOf w i := by
  simp only [decodeLoad] at h
  split_ifs at h with hf3 hf3 hf3 hf3 hf3 <;> cases h
  all_goals exact ⟨fits12_sext _, encodeI_of_fields hop hf3⟩

theorem isWordOf_of_decodeStore (hop : Field.opcode w = 0x23#7) (h : decodeStore w = .instr i) : IsWordOf w i := by
  simp only [decodeStore] at h
  split_ifs at h with hf3 hf3 hf3 <;> cases h
  all_goals exact ⟨fits12_sext _, encodeS_of_fields hop hf3⟩

theorem isWordOf_of_decodeBranch (hop : Field.opcode w = 0x63#7) (h : decodeBranch w = .instr i) : IsWordOf w i := by
  simp only [decodeBranch] at h
  split_ifs at h with hf3 hf3 hf3 hf3 hf3 hf3 <;> cases h
  all_goals exact ⟨fits13Even_sext _, encodeB_of_fields hop hf3⟩

theorem isWordOf_of_decodeJalr (hop : Field.opcode w = 0x67#7) (h : decodeJalr w = .instr i) : IsWordOf w i := by
  unfold decodeJalr at h
  split_ifs at h with hf3
  cases h
  exact ⟨fits12_sext _, encodeI_of_fields hop hf3⟩

/-- Under `FENCE_POLICY = unknown` every accepted word is of one of the nine families. -/
theorem isWordOf_of_decode (h : decode .unknown w = .instr i) : IsWordOf w i := by
  rcases opcode_cases (Field.opcode w) with
    (hop | hop | hop | hop | hop | hop | hop | hop | hop) | hmisc | ⟨hop, hmisc⟩
  · exact isWordOf_of_decodeOp hop (decode_of_opcode_op _ hop ▸ h)
  · exact isWordOf_of_decodeOpImm hop (decode_of_opcode_opImm _ hop ▸ h)
  · exact isWordOf_of_decodeLoad hop (decode_of_opcode_load _ hop ▸ h)
  · exact isWordOf_of_decodeStore hop (decode_of_opcode_store _ hop ▸ h)
  · exact isWordOf_of_decodeBranch hop (decode_of_opcode_branch _ hop ▸ h)
  · cases (decode_of_opcode_lui _ hop).symm.trans h
    exact ⟨lowClear_append_zero _, by rw [encode, ← hop, encodeU_fields]⟩
  · cases (decode_of_opcode_auipc _ hop).symm.trans h
    exact ⟨lowClear_append_zero _, by rw [encode, ← hop, encodeU_fields]⟩
  · cases (decode_of_opcode_jal _ hop).symm.trans h
    exact ⟨fits21Even_sext _, by rw [encode, ← hop, encodeJ_fields]⟩
  · exact isWordOf_of_decodeJalr hop (decode_of_opcode_jalr _ hop ▸ h)
  · cases (decode_of_opcode_miscMem _ hmisc).symm.trans h
  · cases (decode_of_opcode_unsupported _ hop hmisc).symm.trans h

end

/-- Settles O27, family by family. -/
theorem encodeOfDecodeIsTheWord : Obligations.EncodeOfDecodeIsTheWord :=
  fun _ _ h => isWordOf_of_decode h

/-- Under either `FENCE_POLICY` what decodes is well-formed: a fence is `addi x0, x0, 0`. -/
theorem wellFormed_of_decode {fp : FencePolicy} {w : Word} {i : Instr} (h : decode fp w = .instr i) :
    i.wellFormed = true := by
  by_cases hmisc : Field.opcode w = 0x0F#7
  · rw [decode_of_opcode_miscMem fp hmisc] at h
    cases fp
    case unknown => cases h
    case nop =>
      unfold decodeMiscMem at h
      split_ifs at h
      cases h
      decide
  · have samePolicy : decode .unknown w = decode fp w := by simp [decode, hmisc]
    exact (isWordOf_of_decode (samePolicy.trans h)).1

/-! ### Unknown words (R114, R115) -/

section

variable {w w' : Word} {k : UnknownKind}

/-- The funct7 values that some instruction of opcodes 0x33 and 0x13 requires, and the others (R107). -/
theorem funct7_cases (f7 : BitVec 7) : f7 = 0x00#7 ∨ f7 = 0x20#7 ∨ f7 ≠ 0x00#7 ∧ f7 ≠ 0x20#7 := by tauto

theorem decodeOp_eq_unknown_iff : decodeOp w = .unknown k w' ↔
    (Field.funct7 w ≠ 0x00#7 ∧ Field.funct7 w ≠ 0x20#7 ∨
      Field.funct7 w = 0x20#7 ∧ Field.funct3 w ∈ [0b001#3, 0b010#3, 0b011#3, 0b100#3, 0b110#3, 0b111#3]) ∧
    UnknownKind.functionCode = k ∧ w = w' := by
  rcases funct7_cases (Field.funct7 w) with hf7 | hf7 | hf7
  case inr.inr => simp [decodeOp, hf7]
  all_goals
    rcases funct3_cases (Field.funct3 w) with hf3 | hf3 | hf3 | hf3 | hf3 | hf3 | hf3 | hf3 <;>
      simp [decodeOp, hf7, hf3]

theorem decodeOpImm_eq_unknown_iff : decodeOpImm w = .unknown k w' ↔
    (Field.funct3 w = 0b001#3 ∧ Field.funct7 w ≠ 0x00#7 ∨
      Field.funct3 w = 0b101#3 ∧ Field.funct7 w ≠ 0x00#7 ∧ Field.funct7 w ≠ 0x20#7) ∧
    UnknownKind.functionCode = k ∧ w = w' := by
  rcases funct7_cases (Field.funct7 w) with hf7 | hf7 | hf7
  all_goals
    rcases funct3_cases (Field.funct3 w) with hf3 | hf3 | hf3 | hf3 | hf3 | hf3 | hf3 | hf3 <;>
      simp [decodeOpImm, hf7, hf3]

theorem decodeLoad_eq_unknown_iff : decodeLoad w = .unknown k w' ↔
    Field.funct3 w ∈ [0b011#3, 0b110#3, 0b111#3] ∧ UnknownKind.functionCode = k ∧ w = w' := by
  rcases funct3_cases (Field.funct3 w) with hf3 | hf3 | hf3 | hf3 | hf3 | hf3 | hf3 | hf3 <;>
    simp [decodeLoad, hf3]

theorem decodeStore_eq_unknown_iff : decodeStore w = .unknown k w' ↔
    Field.funct3 w ∈ [0b011#3, 0b100#3, 0b101#3, 0b110#3, 0b111#3] ∧ UnknownKind.functionCode = k ∧ w = w' := by
  rcases funct3_cases (Field.funct3 w) with hf3 | hf3 | hf3 | hf3 | hf3 | hf3 | hf3 | hf3 <;>
    simp [decodeStore, hf3]

theorem decodeBranch_eq_unknown_iff : decodeBranch w = .unknown k w' ↔
    Field.funct3 w ∈ [0b010#3, 0b011#3] ∧ UnknownKind.functionCode = k ∧ w = w' := by
  rcases funct3_cases (Field.funct3 w) with hf3 | hf3 | hf3 | hf3 | hf3 | hf3 | hf3 | hf3 <;>
    simp [decodeBranch, hf3]

theorem decodeJalr_eq_unknown_iff : decodeJalr w = .unknown k w' ↔
    Field.funct3 w ≠ 0b000#3 ∧ UnknownKind.functionCode = k ∧ w = w' := by
  unfold decodeJalr
  split_ifs with hf3 <;> simp [hf3]

theorem decodeMiscMem_eq_unknown_iff {fp : FencePolicy} : decodeMiscMem fp w = .unknown k w' ↔
    (fp = .nop ∧ Field.funct3 w ∉ [0b000#3, 0b001#3] ∧ UnknownKind.functionCode = k ∨
      fp = .unknown ∧ UnknownKind.opcode = k) ∧ w = w' := by
  cases fp
  case unknown => simp [decodeMiscMem]
  case nop =>
    by_cases hf3 : Field.funct3 w = 0#3 ∨ Field.funct3 w = 1#3 <;> simp [decodeMiscMem, hf3]

end

/-- The function codes the decoder refuses under an opcode it knows: the list of R114. -/
def RefusesFunctionCode (fp : FencePolicy) (w : Word) : Prop :=
  let opc := Field.opcode w
  let f3 := Field.funct3 w
  let f7 := Field.funct7 w
  (opc = 0x33#7 ∧ (f7 ≠ 0x00#7 ∧ f7 ≠ 0x20#7 ∨
    f7 = 0x20#7 ∧ f3 ∈ [0b001#3, 0b010#3, 0b011#3, 0b100#3, 0b110#3, 0b111#3])) ∨
  (opc = 0x13#7 ∧ (f3 = 0b001#3 ∧ f7 ≠ 0x00#7 ∨ f3 = 0b101#3 ∧ f7 ≠ 0x00#7 ∧ f7 ≠ 0x20#7)) ∨
  (opc = 0x03#7 ∧ f3 ∈ [0b011#3, 0b110#3, 0b111#3]) ∨
  (opc = 0x23#7 ∧ f3 ∈ [0b011#3, 0b100#3, 0b101#3, 0b110#3, 0b111#3]) ∨
  (opc = 0x63#7 ∧ f3 ∈ [0b010#3, 0b011#3]) ∨
  (opc = 0x67#7 ∧ f3 ≠ 0b000#3) ∨
  (opc = 0x0F#7 ∧ fp = .nop ∧ f3 ∉ [0b000#3, 0b001#3])

/-- The opcodes the decoder refuses (R115). -/
def RefusesOpcode (fp : FencePolicy) (w : Word) : Prop :=
  Field.opcode w ∉ supportedOpcodes ∧ ¬ (Field.opcode w = 0x0F#7 ∧ fp = .nop)

/-- All there is to an `Unknown`: why it is refused, and that it carries the word. -/
theorem decode_eq_unknown_iff {fp : FencePolicy} {w w' : Word} {k : UnknownKind} : decode fp w = .unknown k w' ↔
    (RefusesFunctionCode fp w ∧ UnknownKind.functionCode = k ∨ RefusesOpcode fp w ∧ UnknownKind.opcode = k) ∧
      w = w' := by
  unfold RefusesFunctionCode RefusesOpcode
  rcases opcode_cases (Field.opcode w) with
    (hop | hop | hop | hop | hop | hop | hop | hop | hop) | hmisc | ⟨hop, hmisc⟩
  · rw [decode_of_opcode_op fp hop, decodeOp_eq_unknown_iff]; simp [hop, supportedOpcodes, and_assoc]
  · rw [decode_of_opcode_opImm fp hop, decodeOpImm_eq_unknown_iff]; simp [hop, supportedOpcodes, and_assoc]
  · rw [decode_of_opcode_load fp hop, decodeLoad_eq_unknown_iff]; simp [hop, supportedOpcodes, and_assoc]
  · rw [decode_of_opcode_store fp hop, decodeStore_eq_unknown_iff]; simp [hop, supportedOpcodes, and_assoc]
  · rw [decode_of_opcode_branch fp hop, decodeBranch_eq_unknown_iff]; simp [hop, supportedOpcodes, and_assoc]
  · rw [decode_of_opcode_lui fp hop]; simp [hop, supportedOpcodes]
  · rw [decode_of_opcode_auipc fp hop]; simp [hop, supportedOpcodes]
  · rw [decode_of_opcode_jal fp hop]; simp [hop, supportedOpcodes]
  · rw [decode_of_opcode_jalr fp hop, decodeJalr_eq_unknown_iff]; simp [hop, supportedOpcodes, and_assoc]
  · rw [decode_of_opcode_miscMem fp hmisc, decodeMiscMem_eq_unknown_iff]
    cases fp <;> simp [hmisc, supportedOpcodes]
  · rw [decode_of_opcode_unsupported fp hop hmisc]
    simp only [supportedOpcodes, List.mem_cons, List.not_mem_nil, or_false, not_or] at hop
    simp [hop, hmisc, supportedOpcodes]

/-- Settles O32, from why a word is refused. -/
theorem unknownFunctionCodeWordsAreExactlyTheListed : Obligations.UnknownFunctionCodeWordsAreExactlyTheListed :=
  fun _ _ => decode_eq_unknown_iff.trans (by simp [RefusesFunctionCode, Field.opcode, Field.funct3, Field.funct7])

/-- The supported opcodes, and MISC-MEM, end in 11 (R116). -/
theorem refusesOpcode_of_low_bits (fp : FencePolicy) {w : Word} (hlow : w.extractLsb' 0 2 ≠ 0b11#2) :
    RefusesOpcode fp w := by
  have low : w.extractLsb' 0 2 = (Field.opcode w).extractLsb' 0 2 := by
    simp [Field.opcode]
  have supported : ∀ opc ∈ 0x0F#7 :: supportedOpcodes, opc.extractLsb' 0 2 = 0b11#2 := by decide
  rw [low] at hlow
  exact ⟨fun h => hlow (supported _ (.tail _ h)), fun h => hlow (supported _ (h.1 ▸ .head _))⟩

/-- Settles O33, from why a word is refused. -/
theorem unknownOpcodeWordsAreExactlyThoseOfUnsupportedOpcodes :
    Obligations.UnknownOpcodeWordsAreExactlyThoseOfUnsupportedOpcodes :=
  fun fp w =>
  have refused : decode fp w = .unknown .opcode w ↔ RefusesOpcode fp w := decode_eq_unknown_iff.trans (by simp)
  ⟨refused, fun _ _ h => (decode_eq_unknown_iff.mp h).2.symm,
    fun hlow => refused.mpr (refusesOpcode_of_low_bits fp hlow)⟩

/-- Settles O34: MISC-MEM by its policy, SYSTEM as one of the opcodes that are not supported. -/
theorem fenceAndSystemWordsDecodeAsTheirPoliciesSay : Obligations.FenceAndSystemWordsDecodeAsTheirPoliciesSay := by
  intro w
  refine ⟨fun hmisc => ?_, fun fp hsys => ?_⟩
  · rw [decode_of_opcode_miscMem .unknown hmisc, decode_of_opcode_miscMem .nop hmisc]
    exact ⟨rfl, fun hf3 => if_pos hf3, fun hf3 => if_neg hf3⟩
  · have hop : Field.opcode w = 0x73#7 := hsys
    exact decode_of_opcode_unsupported fp (by rw [hop]; decide) (by rw [hop]; decide)

/-! ### The opcode table (R110) -/

/-- Under a row's mask a word has the row's fixed bits, so it has each field that the mask covers. -/
theorem field_of_admits {row : OpcodeRow} {w : Word} {d n : Nat} (h : row.admits w = true)
    (hmask : row.mask.extractLsb' d n = BitVec.allOnes n) : w.extractLsb' d n = row.bits.extractLsb' d n := by
  rw [← of_decide_eq_true h, BitVec.extractLsb'_and, hmask, BitVec.and_allOnes]

/-- The word decodes to an instruction of the row's mnemonic. -/
def DecodesTo (fp : FencePolicy) (w : Word) (row : OpcodeRow) : Prop :=
  ∃ i, decode fp w = .instr i ∧ i.mnemonic = row.mnemonic

section

variable (fp : FencePolicy) {row : OpcodeRow} {w : Word}

theorem decode_of_mem_opRows (hrow : row ∈ opRows) (h : row.admits w = true) : DecodesTo fp w row := by
  simp only [opRows, List.mem_cons, List.not_mem_nil, or_false] at hrow
  rcases hrow with rfl | rfl | rfl | rfl | rfl | rfl | rfl | rfl | rfl | rfl
  all_goals
    have hop : Field.opcode w = 0x33#7 := field_of_admits h (by decide)
    have hf3 : Field.funct3 w = _ := field_of_admits h (by decide)
    have hf7 : Field.funct7 w = _ := field_of_admits h (by decide)
    simp [DecodesTo, decode_of_opcode_op fp hop, decodeOp, hf3, hf7, Instr.mnemonic]

theorem decode_of_mem_opImmRows (hrow : row ∈ opImmRows) (h : row.admits w = true) : DecodesTo fp w row := by
  simp only [opImmRows, List.mem_cons, List.not_mem_nil, or_false] at hrow
  rcases hrow with rfl | rfl | rfl | rfl | rfl | rfl | rfl | rfl | rfl
  all_goals
    have hop : Field.opcode w = 0x13#7 := field_of_admits h (by decide)
    have hf3 : Field.funct3 w = _ := field_of_admits h (by decide)
  iterate 6 simp [DecodesTo, decode_of_opcode_opImm fp hop, decodeOpImm, hf3, Instr.mnemonic]
  all_goals
    have hf7 : Field.funct7 w = _ := field_of_admits h (by decide)
    simp [DecodesTo, decode_of_opcode_opImm fp hop, decodeOpImm, hf3, hf7, Instr.mnemonic]

theorem decode_of_mem_loadRows (hrow : row ∈ loadRows) (h : row.admits w = true) : DecodesTo fp w row := by
  simp only [loadRows, List.mem_cons, List.not_mem_nil, or_false] at hrow
  rcases hrow with rfl | rfl | rfl | rfl | rfl
  all_goals
    have hop : Field.opcode w = 0x03#7 := field_of_admits h (by decide)
    have hf3 : Field.funct3 w = _ := field_of_admits h (by decide)
    simp [DecodesTo, decode_of_opcode_load fp hop, decodeLoad, hf3, Instr.mnemonic]

theorem decode_of_mem_storeRows (hrow : row ∈ storeRows) (h : row.admits w = true) : DecodesTo fp w row := by
  simp only [storeRows, List.mem_cons, List.not_mem_nil, or_false] at hrow
  rcases hrow with rfl | rfl | rfl
  all_goals
    have hop : Field.opcode w = 0x23#7 := field_of_admits h (by decide)
    have hf3 : Field.funct3 w = _ := field_of_admits h (by decide)
    simp [DecodesTo, decode_of_opcode_store fp hop, decodeStore, hf3, Instr.mnemonic]

theorem decode_of_mem_branchRows (hrow : row ∈ branchRows) (h : row.admits w = true) : DecodesTo fp w row := by
  simp only [branchRows, List.mem_cons, List.not_mem_nil, or_false] at hrow
  rcases hrow with rfl | rfl | rfl | rfl | rfl | rfl
  all_goals
    have hop : Field.opcode w = 0x63#7 := field_of_admits h (by decide)
    have hf3 : Field.funct3 w = _ := field_of_admits h (by decide)
    simp [DecodesTo, decode_of_opcode_branch fp hop, decodeBranch, hf3, Instr.mnemonic]

theorem decode_of_mem_jumpRows (hrow : row ∈ jumpRows) (h : row.admits w = true) : DecodesTo fp w row := by
  simp only [jumpRows, List.mem_cons, List.not_mem_nil, or_false] at hrow
  rcases hrow with rfl | rfl
  · exact ⟨_, decode_of_opcode_jal fp (field_of_admits h (by decide)), rfl⟩
  · have hf3 : Field.funct3 w = 0#3 := field_of_admits h (by decide)
    exact ⟨_, (decode_of_opcode_jalr fp (field_of_admits h (by decide))).trans (if_pos hf3), rfl⟩

theorem decode_of_mem_upperRows (hrow : row ∈ upperRows) (h : row.admits w = true) : DecodesTo fp w row := by
  simp only [upperRows, List.mem_cons, List.not_mem_nil, or_false] at hrow
  rcases hrow with rfl | rfl
  · exact ⟨_, decode_of_opcode_lui fp (field_of_admits h (by decide)), rfl⟩
  · exact ⟨_, decode_of_opcode_auipc fp (field_of_admits h (by decide)), rfl⟩

end

/-- Every instruction's word is of the instruction's own row. -/
theorem row_statement : ∀ i : Instr, Row.Statement i
  | .add rd rs1 rs2 => Row.add rd rs1 rs2
  | .sub rd rs1 rs2 => Row.sub rd rs1 rs2
  | .sll rd rs1 rs2 => Row.sll rd rs1 rs2
  | .slt rd rs1 rs2 => Row.slt rd rs1 rs2
  | .sltu rd rs1 rs2 => Row.sltu rd rs1 rs2
  | .xor rd rs1 rs2 => Row.xor rd rs1 rs2
  | .srl rd rs1 rs2 => Row.srl rd rs1 rs2
  | .sra rd rs1 rs2 => Row.sra rd rs1 rs2
  | .or rd rs1 rs2 => Row.or rd rs1 rs2
  | .and rd rs1 rs2 => Row.and rd rs1 rs2
  | .addi rd rs1 imm => Row.addi rd rs1 imm
  | .slti rd rs1 imm => Row.slti rd rs1 imm
  | .sltiu rd rs1 imm => Row.sltiu rd rs1 imm
  | .xori rd rs1 imm => Row.xori rd rs1 imm
  | .ori rd rs1 imm => Row.ori rd rs1 imm
  | .andi rd rs1 imm => Row.andi rd rs1 imm
  | .slli rd rs1 shamt => Row.slli rd rs1 shamt
  | .srli rd rs1 shamt => Row.srli rd rs1 shamt
  | .srai rd rs1 shamt => Row.srai rd rs1 shamt
  | .lb rd rs1 imm => Row.lb rd rs1 imm
  | .lh rd rs1 imm => Row.lh rd rs1 imm
  | .lw rd rs1 imm => Row.lw rd rs1 imm
  | .lbu rd rs1 imm => Row.lbu rd rs1 imm
  | .lhu rd rs1 imm => Row.lhu rd rs1 imm
  | .sb rs1 rs2 imm => Row.sb rs1 rs2 imm
  | .sh rs1 rs2 imm => Row.sh rs1 rs2 imm
  | .sw rs1 rs2 imm => Row.sw rs1 rs2 imm
  | .beq rs1 rs2 imm => Row.beq rs1 rs2 imm
  | .bne rs1 rs2 imm => Row.bne rs1 rs2 imm
  | .blt rs1 rs2 imm => Row.blt rs1 rs2 imm
  | .bge rs1 rs2 imm => Row.bge rs1 rs2 imm
  | .bltu rs1 rs2 imm => Row.bltu rs1 rs2 imm
  | .bgeu rs1 rs2 imm => Row.bgeu rs1 rs2 imm
  | .jal rd imm => Row.jal rd imm
  | .jalr rd rs1 imm => Row.jalr rd rs1 imm
  | .lui rd imm => Row.lui rd imm
  | .auipc rd imm => Row.auipc rd imm

/-- Settles O28: from the row's fixed bits by family, and back by the word that `encode` gives the instruction. -/
theorem decoderAcceptsExactlyTheOpcodeTable : Obligations.DecoderAcceptsExactlyTheOpcodeTable := by
  refine ⟨fun fp w row hrow h => ?_, fun w i h => ?_⟩
  · simp only [opcodeTable, List.mem_append] at hrow
    rcases hrow with (((((hrow | hrow) | hrow) | hrow) | hrow) | hrow) | hrow
    · exact decode_of_mem_opRows fp hrow h
    · exact decode_of_mem_opImmRows fp hrow h
    · exact decode_of_mem_loadRows fp hrow h
    · exact decode_of_mem_storeRows fp hrow h
    · exact decode_of_mem_branchRows fp hrow h
    · exact decode_of_mem_jumpRows fp hrow h
    · exact decode_of_mem_upperRows fp hrow h
  · obtain ⟨-, hword⟩ := isWordOf_of_decode h
    obtain ⟨row, hrow, hname, hfixed⟩ := row_statement i
    exact ⟨row, hrow, hname, decide_eq_true (hword ▸ hfixed)⟩

end Sys2Proof.Proofs
end

section
/-! PROOFS of the register-immediate rules (spec/42_register_immediate.md): R207 to R209, the shifts. -/

namespace Sys2Proof.Proofs

open Sys2Proof.Machine Sys2Proof.Laws Sys2Proof.Spec

/-- The shape of the three immediate shifts, which `exec` takes to `regShift` by definition. -/
theorem regShift_writesReg {s : State} {op : Word → Nat → Word} {rd rs1 : RegIx} {shamt : BitVec 5} {v : Word}
    (hop : op (s.readReg rs1) shamt.toNat = v) :
    ∃ t, s.regShift op rd rs1 shamt = .next t ∧ WritesReg s t rd v (s.pc + 4#32) :=
  hop ▸ finish_writesReg s rd _ s.pcPlus4

/-- Settles O7: the three words read back, the refused one from R114's list, and each shift as product or quotient by a
power of 2. -/
theorem immediateShiftsDecodeAndShiftByShamt : Obligations.ImmediateShiftsDecodeAndShiftByShamt := by
  intro fp s rd rs1 shamt
  have refused (f7 : BitVec 7) (hf7 : f7 ≠ 0x00#7) :
      RefusesFunctionCode fp (encodeR f7 shamt rs1 1#3 rd 0x13#7) :=
    .inr (.inl ⟨opcode_encodeR .., .inl ⟨funct3_encodeR .., (funct7_encodeR ..).trans_ne hf7⟩⟩)
  exact ⟨decode_encode_of_opcode_opImm fp (.slli rd rs1 shamt) (opcode_encodeR ..) rfl,
    decode_encode_of_opcode_opImm fp (.srli rd rs1 shamt) (opcode_encodeR ..) rfl,
    decode_encode_of_opcode_opImm fp (.srai rd rs1 shamt) (opcode_encodeR ..) rfl,
    fun f7 hf7 => decode_eq_unknown_iff.mpr ⟨.inl ⟨refused f7 hf7, rfl⟩, rfl⟩,
    regShift_writesReg (shiftLeft_eq_mul_pow _ _), regShift_writesReg (shiftRightLogical_eq_div_pow _ _),
    regShift_writesReg (shiftRightArith_eq_div_pow _ _)⟩

end Sys2Proof.Proofs
end

section
/-! PROOFS of the jump rules (spec/46_jumps.md): R282, jalr. -/

namespace Sys2Proof.Proofs

open Sys2Proof.Machine Sys2Proof.Laws Sys2Proof.Spec

/-- Clearing bit 0 rounds down to an even number. -/
theorem and_not_one_eq_ofNat (a : Word) : a &&& ~~~1#32 = BitVec.ofNat 32 (a.toNat / 2 * 2) := by
  have mask : ~~~1#32 = BitVec.allOnes 32 <<< 1 := by decide
  rw [mask, ← BitVec.shiftLeft_ushiftRight, ← BitVec.toNat_inj, BitVec.toNat_shiftLeft, BitVec.toNat_ushiftRight,
    BitVec.toNat_ofNat, Nat.shiftLeft_eq, Nat.shiftRight_eq_div_pow, pow_one]

/-- Settles O18: the word read back, the refused one from R114's list, and the frame of `finish` with the link as its
value and the target, read before rd is written, as the next pc. -/
theorem jalrDecodesLinksAndJumpsWithBitZeroCleared : Obligations.JalrDecodesLinksAndJumpsWithBitZeroCleared := by
  intro fp s rd rs1 i imm
  rw [← and_not_one_eq_ofNat]
  simp only [append_eq_encodeI]
  have refused (f3 : BitVec 3) (hf3 : f3 ≠ 0#3) : RefusesFunctionCode fp (encodeI (sext i) rs1 f3 rd 0x67#7) :=
    .inr (.inr (.inr (.inr (.inr (.inl ⟨opcode_encodeI .., (funct3_encodeI ..).trans_ne hf3⟩)))))
  exact ⟨decode_encode_jalr fp rd rs1 (fits12_sext i),
    fun f3 hf3 => decode_eq_unknown_iff.mpr ⟨.inl ⟨refused f3 hf3, rfl⟩, rfl⟩,
    finish_writesReg s rd s.pcPlus4 (s.jalrTarget rs1 imm)⟩

end Sys2Proof.Proofs
end

section
/-! PROOFS of the memory rules (spec/20_memory.md): R64, the word port's round trip; R67, R68, R70, halfword lanes. -/

namespace Sys2Proof.Proofs

open Sys2Proof.Machine Sys2Proof.Laws

/-! ### The round trip of the word port (R64) -/

theorem eq_of_byteOf_eq {u v : Word} (h : ∀ k < 4, byteOf u k = byteOf v k) : u = v := by
  refine field_ext fun j hj => ?_
  have lane := congrArg (·.getLsbD (j % 8)) (h (j / 8) (by omega))
  simpa [byteOf, Nat.mod_lt, Nat.div_add_mod] using lane

/-- Lane `k` of the word of `b` is a byte of that word, so a word write changes all lanes or none. -/
theorem wordRead_wordWrite (m : Memory) (a b v : Word) :
    Memory.wordRead (Memory.wordWrite m a v) b = if wordAddr b = wordAddr a then v else Memory.wordRead m b := by
  refine eq_of_byteOf_eq fun k hk => ?_
  obtain ⟨sameWord, lane⟩ := (eq_wordAddr_add_iff b (wordAddr b + BitVec.ofNat 32 k) hk).mp rfl
  rw [byteOf_wordRead _ _ hk, readByte_wordWrite_eq_lane, sameWord, lane, apply_ite (byteOf · k),
    byteOf_wordRead _ _ hk]

/-- Settles O39, lane by lane. -/
theorem wordWriteThenReadRoundTrips : Obligations.WordWriteThenReadRoundTrips :=
  wordRead_wordWrite

/-! ### The halfword that is read (R67, R70) -/

theorem toNat_mod_four_succ_of_lane_ne {a : Word} (hlane : a.toNat % 4 ≠ 3) :
    (a + 1#32).toNat % 4 = a.toNat % 4 + 1 := by
  bv_omega

theorem wordAddr_succ_of_lane_ne {a : Word} (hlane : a.toNat % 4 ≠ 3) : wordAddr (a + 1#32) = wordAddr a := by
  rw [wordAddr_eq_wordAddr_iff]
  bv_omega

/-- The halfword a read at `a` gives: the byte at `a`, and the next one if the word holds it. -/
def halfwordAt (m : Memory) (a : Word) : BitVec 16 :=
  (if a.toNat % 4 = 3 then 0#8 else Memory.readByte m (a + 1#32)) ++ Memory.readByte m a

theorem byteOf_four (w : Word) : byteOf w 4 = 0#8 :=
  field_ext fun k _ => by simp [byteOf]

/-- `MemRead(a, 2)`: above lane 3 the word has no more bits. -/
theorem memRead_half (m : Memory) (a : Word) : Memory.memRead m a .half = zext (halfwordAt m a) := by
  have mask : Width.mask .half = zext (BitVec.allOnes 16) := by decide
  rw [Memory.memRead, mask, ushiftRight_and_allOnes, laneShift_eq_mod, extractLsb'_half_eq_bytes, halfwordAt,
    ← readByte_eq_byteOf_wordRead]
  by_cases hlane : a.toNat % 4 = 3
  · rw [if_pos hlane, hlane, byteOf_four]
  · rw [if_neg hlane, readByte_eq_byteOf_wordRead m (a + 1#32), toNat_mod_four_succ_of_lane_ne hlane,
      wordRead_congr m (wordAddr_succ_of_lane_ne hlane)]

/-! ### The halfword that is written (R68, R70) -/

/-- The merge of a halfword store replaces the byte in the address's lane and the next one, if there is one. -/
theorem byteOf_mergeLane_half (w v a : Word) {k : Nat} (hk : k < 4) :
    byteOf (mergeLane w v (Width.mask .half) (laneShift a)) k =
      if k = a.toNat % 4 then v.extractLsb' 0 8 else if k = a.toNat % 4 + 1 then v.extractLsb' 8 8 else byteOf w k := by
  have mask : Width.mask .half = zext (BitVec.allOnes 16) := by decide
  refine field_ext fun j hj => ?_
  rw [byteOf, BitVec.getLsbD_extractLsb', decide_eq_true hj, Bool.true_and, mask, laneShift_eq_mod,
    getLsbD_mergeLane _ _ _ _ (by omega)]
  by_cases hlow : k = a.toNat % 4
  · rw [if_pos hlow, if_pos (by omega), hlow, Nat.add_sub_cancel_left]
    simp [hj]
  · by_cases hhigh : k = a.toNat % 4 + 1
    · rw [if_neg hlow, if_pos hhigh, if_pos (by omega), show 8 * k + j - 8 * (a.toNat % 4) = 8 + j by omega]
      simp [hj]
    · rw [if_neg hlow, if_neg hhigh, if_neg (by omega), byteOf]
      simp [hj]

/-- `MemWrite(a, 2, v)` writes the byte at `a`, and the next one if the word holds it. -/
theorem readByte_memWrite_half (m : Memory) (a v b : Word) :
    Memory.readByte (Memory.memWrite m a .half v) b =
      if b = a then v.extractLsb' 0 8
      else if b = a + 1#32 ∧ a.toNat % 4 ≠ 3 then v.extractLsb' 8 8 else Memory.readByte m b := by
  have low : b = a ↔ wordAddr b = wordAddr a ∧ b.toNat % 4 = a.toNat % 4 := by
    simpa only [wordAddr_add_lane] using eq_wordAddr_add_iff a b (k := a.toNat % 4) (Nat.mod_lt _ (by decide))
  have high : b = a + 1#32 ∧ a.toNat % 4 ≠ 3 ↔ wordAddr b = wordAddr a ∧ b.toNat % 4 = a.toNat % 4 + 1 := by
    rw [wordAddr_eq_wordAddr_iff]
    bv_omega
  rw [Memory.memWrite, laneWrite_eq_wordWrite_mergeLane, readByte_wordWrite_eq_lane,
    byteOf_mergeLane_half _ _ _ (Nat.mod_lt _ (by decide))]
  by_cases hword : wordAddr b = wordAddr a
  · simp only [low, high, hword, true_and, if_true, wordRead_congr m hword.symm, readByte_eq_byteOf_wordRead m b]
  · simp only [low, high, hword, false_and, if_false]

/-! ### Misaligned accesses (R70) -/

/-- Settles O40: the word port sees the containing word alone, and the halfword at lane 1 or 3 is its bytes. -/
theorem maskedMisalignedAccessesUseTheContainingWord : Obligations.MaskedMisalignedAccessesUseTheContainingWord := by
  intro m a v
  have halfRead : (Memory.memRead m a .half).extractLsb' 0 16 = halfwordAt m a := by
    rw [memRead_half, extractLsb'_zext _ (by decide)]
  rw [halfRead, halfwordAt]
  have word : wordAddr (a &&& 0xFFFFFFFC#32) = wordAddr a := wordAddr_wordAddr a
  refine ⟨wordRead_congr m word.symm, ?_, fun hlane => ⟨?_, fun b => ?_⟩, fun hlane => ⟨?_, ?_, fun b => ?_⟩⟩
  · rw [Memory.memWrite, Memory.wordWrite, Memory.wordWrite, word]
  · rw [if_neg (by omega)]
  · rw [readByte_memWrite_half]
    simp [hlane]
  · rw [if_pos hlane]
  · rw [if_pos hlane]
    exact BitVec.signExtend_eq_setWidth_of_msb_false (BitVec.msb_append.trans rfl)
  · rw [readByte_memWrite_half]
    simp [hlane]

end Sys2Proof.Proofs
end

section
/-! PROOFS of the load and store rules (spec/43_loads.md, spec/44_stores.md): R222, R225, R242, and what a load reads
after a store. -/

namespace Sys2Proof.Proofs

open Sys2Proof.Machine Sys2Proof.Laws Sys2Proof.Spec

/-! ### Extension (R222, R225) -/

theorem extendHalfSigned_memRead (s : State) (a : Word) :
    extendHalfSigned (Memory.memRead s.mem a .half) = BitVec.ofInt 32 (halfAt s a).toInt := by
  rw [extendHalfSigned, memRead_half, extractLsb'_zext _ (by decide), sext, BitVec.signExtend]
  rfl

theorem extendHalfUnsigned_memRead (s : State) (a : Word) :
    extendHalfUnsigned (Memory.memRead s.mem a .half) = BitVec.ofNat 32 (halfAt s a).toNat := by
  rw [extendHalfUnsigned, memRead_half, extractLsb'_zext _ (by decide), zext, BitVec.ofNat_toNat]
  rfl

/-! ### Alignment (R69) -/

/-- An odd address under `trap` is the misaligned halfword access. -/
theorem alignFault_half_of_odd {s : State} {a : Word} (htrap : s.params.dataAlign = .trap) (hodd : a.toNat % 2 = 1) :
    s.alignFault .half a = true :=
  alignFault_eq_true_iff.mpr ⟨htrap, by simp [Width.bytes, hodd]⟩

/-! ### The statements -/

/-- Settles O9: the two clauses are the two values of `alignFault` for a halfword access. -/
theorem halfLoadsDecodeAndExtendTheHalfwordOrFail : Obligations.HalfLoadsDecodeAndExtendTheHalfwordOrFail := by
  intro fp s rd rs1 i imm
  simp only [append_eq_encodeI]
  refine ⟨decode_encode_of_opcode_load fp (.lh rd rs1 (sext i)) (opcode_encodeI ..) (fits12_sext i),
    decode_encode_of_opcode_load fp (.lhu rd rs1 (sext i)) (opcode_encodeI ..) (fits12_sext i),
    fun haligned => ?_, fun htrap hodd => ?_⟩
  · have allowed : s.alignFault .half (s.effAddr rs1 imm) = false := alignFault_eq_false_iff.mpr haligned
    exact ⟨load_writesReg allowed (extendHalfSigned_memRead _ _),
      load_writesReg allowed (extendHalfUnsigned_memRead _ _)⟩
  · have fault : s.alignFault .half (s.effAddr rs1 imm) = true := alignFault_half_of_odd htrap hodd
    exact ⟨load_failed fault, load_failed fault⟩

/-- Settles O12: the two clauses are the two values of `alignFault` for a halfword access. -/
theorem halfStoreDecodesAndReplacesItsLaneOrFails : Obligations.HalfStoreDecodesAndReplacesItsLaneOrFails := by
  intro fp s rs1 rs2 hi lo imm
  rw [append_eq_encodeS]
  exact ⟨decode_encode_of_opcode_store fp (.sh rs1 rs2 (sext (hi ++ lo))) (opcode_encodeS ..) (fits12_sext _),
    fun haligned => store_writesBytes (alignFault_eq_false_iff.mpr haligned) (readByte_memWrite_half s.mem _ _),
    fun htrap hodd => store_failed (alignFault_half_of_odd htrap hodd)⟩

/-! ### A load after a store -/

/-- The registers that make up the address are as before, so the same base and offset give the same address. -/
theorem effAddr_of_writesBytes {s t : State} {byteAt : Word → Byte} (h : WritesBytes s t byteAt) (rs1 : RegIx)
    (imm : Word) : t.effAddr rs1 imm = s.effAddr rs1 imm := by
  obtain ⟨-, -, regs, -⟩ := h
  rw [State.effAddr, State.effAddr, regs]

section

variable (s : State) (rs1 rs2 : RegIx) {rd : RegIx} (imm : Word)

theorem load_byte_of_store_byte (hrd : rd ≠ 0#5) :
    ∃ t u, s.store .byte rs1 rs2 imm = .next t ∧ t.load .byte extendByteUnsigned rd rs1 imm = .next u ∧
      u.readReg rd = BitVec.ofNat 32 ((s.readReg rs2).toNat % 2 ^ 8) ∧ SameBytes t u := by
  obtain ⟨t, hstore, hwrites⟩ := store_writesBytes (s := s) (rs1 := rs1) (rs2 := rs2) (imm := imm) (alignFault_byte _)
    (readByte_memWrite_byte s.mem _ _)
  obtain ⟨u, hload, regs, -, bytes, -⟩ := load_writesReg (s := t) (rd := rd) (rs1 := rs1) (imm := imm)
    (alignFault_byte _) (extendByteUnsigned_memRead _ _)
  have stored : Memory.readByte t.mem (s.effAddr rs1 imm) = (s.readReg rs2).extractLsb' 0 8 :=
    (hwrites.1 _).trans (if_pos rfl)
  refine ⟨t, u, hstore, hload, ?_, bytes⟩
  rw [regs, if_pos ⟨rfl, hrd⟩, effAddr_of_writesBytes hwrites, stored, BitVec.extractLsb'_toNat, Nat.shiftRight_zero]

/-- An even address is at lane 0 or 2, so that both bytes are in the word. -/
theorem load_half_of_store_half (hrd : rd ≠ 0#5) (heven : (s.effAddr rs1 imm).toNat % 2 = 0) :
    ∃ t u, s.store .half rs1 rs2 imm = .next t ∧ t.load .half extendHalfUnsigned rd rs1 imm = .next u ∧
      u.readReg rd = BitVec.ofNat 32 ((s.readReg rs2).toNat % 2 ^ 16) ∧ SameBytes t u := by
  have aligned (t : State) : t.alignFault .half (s.effAddr rs1 imm) = false := alignFault_eq_false_iff.mpr (.inr heven)
  have lane : (s.effAddr rs1 imm).toNat % 4 ≠ 3 := by omega
  have above : s.effAddr rs1 imm + 1#32 ≠ s.effAddr rs1 imm := by bv_omega
  obtain ⟨t, hstore, hwrites⟩ := store_writesBytes (s := s) (rs1 := rs1) (rs2 := rs2) (imm := imm) (aligned s)
    (readByte_memWrite_half s.mem _ _)
  have address := effAddr_of_writesBytes hwrites rs1 imm
  obtain ⟨u, hload, regs, -, bytes, -⟩ := load_writesReg (s := t) (rd := rd) (rs1 := rs1) (imm := imm)
    (address ▸ aligned t) (extendHalfUnsigned_memRead _ _)
  have low : Memory.readByte t.mem (s.effAddr rs1 imm) = byteOf (s.readReg rs2) 0 := (hwrites.1 _).trans (if_pos rfl)
  have high : Memory.readByte t.mem (s.effAddr rs1 imm + 1#32) = byteOf (s.readReg rs2) 1 :=
    (hwrites.1 _).trans ((if_neg above).trans (if_pos ⟨rfl, lane⟩))
  have stored : halfAt t (s.effAddr rs1 imm) = (s.readReg rs2).extractLsb' (8 * 0) 16 := by
    rw [halfAt, if_neg lane, low, high, extractLsb'_half_eq_bytes]
  refine ⟨t, u, hstore, hload, ?_, bytes⟩
  rw [regs, if_pos ⟨rfl, hrd⟩, address, stored, BitVec.extractLsb'_toNat, Nat.mul_zero, Nat.shiftRight_zero]

end

/-- Settles O14, the byte and the halfword. -/
theorem subWordStoreThenLoadReturnsTheSlice : Obligations.SubWordStoreThenLoadReturnsTheSlice :=
  fun s rs1 rs2 _ imm hrd =>
    ⟨load_byte_of_store_byte s rs1 rs2 imm hrd, fun heven => load_half_of_store_half s rs1 rs2 imm hrd heven⟩

end Sys2Proof.Proofs
end

section
/-! PROOFS of the state's canonical form and of creation (spec/10_state.md R30, R47; spec/70_reset_and_hazards.md R331,
R333). -/

namespace Sys2Proof.Proofs

open Sys2Proof.Machine Sys2Proof.Spec

/-! ### Canonical memories are told apart by their bytes (R60) -/

theorem lookup_of_mem {m : Memory} (hrising : m.Pairwise (fun c d => c.1 < d.1)) {c : Host.Cell} (hc : c ∈ m) :
    Memory.lookup m c.1 = c.2 := by
  induction m with
  | nil => cases hc
  | cons d rest ih =>
    obtain ⟨hlt, hrest⟩ := List.pairwise_cons.mp hrising
    rcases List.mem_cons.mp hc with rfl | hc
    · exact if_pos rfl
    · exact (if_neg (hlt c hc).ne).trans (ih hrest hc)

theorem mem_of_lookup_ne {m : Memory} {k : Nat} (h : Memory.lookup m k ≠ Memory.unlisted) :
    (k, Memory.lookup m k) ∈ m := by
  induction m with
  | nil => exact absurd rfl h
  | cons d rest ih =>
    simp only [Memory.lookup] at h ⊢
    split_ifs at h ⊢ with hk
    · exact hk ▸ .head _
    · exact .tail _ (ih h)

theorem subset_of_readByte_eq {m n : Memory} (hm : Memory.wf m)
    (hbytes : ∀ a, Memory.readByte n a = Memory.readByte m a) : m ⊆ n := by
  intro c hc
  obtain ⟨hlt, hlisted⟩ := hm.2 c hc
  have here : Memory.lookup n c.1 = c.2 := by
    have := hbytes (BitVec.ofNat 32 c.1)
    rwa [Memory.readByte, Memory.readByte, BitVec.toNat_ofNat, Nat.mod_eq_of_lt hlt, lookup_of_mem hm.1 hc] at this
  have := mem_of_lookup_ne (here ▸ hlisted)
  rwa [here] at this

/-- A strictly rising list is determined by its entries, and these by what is read. -/
theorem eq_of_readByte_eq {m n : Memory} (hm : Memory.wf m) (hn : Memory.wf n)
    (hbytes : ∀ a, Memory.readByte n a = Memory.readByte m a) : n = m := by
  have nodup {l : Memory} (hl : Memory.wf l) : l.Nodup := hl.1.imp fun hlt => ne_of_apply_ne Prod.fst hlt.ne
  have sameEntries : n.Perm m := (List.perm_ext_iff_of_nodup (nodup hn) (nodup hm)).mpr fun c =>
    ⟨fun hc => subset_of_readByte_eq hn (fun a => (hbytes a).symm) hc, fun hc => subset_of_readByte_eq hm hbytes hc⟩
  exact sameEntries.eq_of_pairwise (fun _ _ _ _ hlt hgt => absurd hgt hlt.asymm) hn.1 hm.1

/-- Slot 0 is never read, but it is 0 in both. -/
theorem x_eq_of_sameRegs {s t : State} (hs : s.x[0] = 0#32) (ht : t.x[0] = 0#32) (hregs : SameRegs s t) :
    t.x = s.x := by
  refine Vector.ext fun k hk => ?_
  by_cases hzero : k = 0
  · subst hzero
    rw [hs, ht]
  · have hne : BitVec.ofNat 5 k ≠ 0#5 := fun h => hzero (by
      have := congrArg BitVec.toNat h
      rwa [BitVec.toNat_ofNat, Nat.mod_eq_of_lt hk] at this)
    have := hregs (BitVec.ofNat 5 k)
    rw [readReg_of_ne _ _ hne, readReg_of_ne _ _ hne] at this
    simpa [Nat.mod_eq_of_lt hk] using this

/-- Settles O42, field by field. -/
theorem readingsDetermineTheState : Obligations.ReadingsDetermineTheState := by
  intro s t hs ht hregs hbytes ⟨hrun, hreport, hparams⟩ hpc
  have hx := x_eq_of_sameRegs hs.zero ht.zero hregs
  have hmem := eq_of_readByte_eq hs.memory ht.memory hbytes
  cases s
  cases t
  congr

/-! ### Creation (R331, R333) -/

section

variable {m : Memory} {a : Word} {image : Image}

theorem readByte_imageWrite_of_ne (hne : ∀ e ∈ image, wordAddr e.1 ≠ wordAddr a) :
    Memory.readByte (Image.write m image) a = Memory.readByte m a := by
  induction image generalizing m with
  | nil => rfl
  | cons e rest ih =>
    obtain ⟨he, hrest⟩ := List.forall_mem_cons.mp hne
    rw [Image.write, ih hrest, readByte_wordWrite_eq_lane, if_neg he.symm]

theorem wordRead_imageWrite_of_ne (hne : ∀ e ∈ image, wordAddr e.1 ≠ wordAddr a) :
    Memory.wordRead (Image.write m image) a = Memory.wordRead m a := by
  refine eq_of_byteOf_eq fun k hk => ?_
  have sameWord := ((eq_wordAddr_add_iff a (wordAddr a + BitVec.ofNat 32 k) hk).mp rfl).1
  rw [byteOf_wordRead _ _ hk, byteOf_wordRead _ _ hk,
    readByte_imageWrite_of_ne fun e he => (hne e he).trans_eq sameWord.symm]

/-- No later entry writes the word of an earlier one. -/
theorem wordRead_imageWrite_of_mem (hdistinct : Image.distinctWords image) {e : Word × Word} (he : e ∈ image) :
    Memory.wordRead (Image.write m image) e.1 = e.2 := by
  induction image generalizing m with
  | nil => cases he
  | cons f rest ih =>
    obtain ⟨hne, hrest⟩ := List.pairwise_cons.mp hdistinct
    rcases List.mem_cons.mp he with rfl | he
    · rw [Image.write, wordRead_imageWrite_of_ne fun f hf => (hne f hf).symm, wordRead_wordWrite, if_pos rfl]
    · exact ih hrest he

end

theorem reset_inv : State.reset.Inv := ⟨wf_nil, by simp [State.reset], fun _ => rfl⟩

/-- Settles O44, from the reset values field by field. -/
theorem resetHoldsTheStatedValuesAndTheInvariant : Obligations.ResetHoldsTheStatedValuesAndTheInvariant :=
  ⟨reset_readReg, readByte_nil, reset_run, reset_report, reset_inv⟩

/-- Settles O43: the machine of `State.create` is that of reset with the image in its memory. -/
theorem creationZeroesWritesTheImageAndStarts : Obligations.CreationZeroesWritesTheImageAndStarts := by
  intro params entry image
  refine ⟨fun hdistinct => ?_, fun hduplicate => if_neg hduplicate⟩
  have inv : State.Inv { State.reset with mem := Image.write [] image, pc := entry, params := params } :=
    ⟨wf_imageWrite _ _ wf_nil, reset_inv.zero, fun _ => rfl⟩
  exact ⟨_, if_pos hdistinct, rfl, rfl, rfl, rfl, reset_readReg, inv,
    fun e he => wordRead_imageWrite_of_mem hdistinct he,
    fun a hne => (readByte_imageWrite_of_ne hne).trans (readByte_nil a)⟩

end Sys2Proof.Proofs
end

section
/-! PROOFS of the rules over all instructions (spec/40_engine.md R155, R156; spec/60_exceptions.md R302, R304): what an
execution that fails does, what one that completes does, and that these are all. -/

namespace Sys2Proof.Proofs

open Sys2Proof.Machine Sys2Proof.Laws Sys2Proof.Spec

/-! ### What a completing instruction does -/

/-- The instruction goes to the next pc of R156's table; only its destination register (never x0) and the bytes it
stores to can read differently; the loop's state, the record and the parameters are as before. -/
structure Completes (i : Instr) (s t : State) : Prop where
  pc : t.pc = nextPc s i
  regs : ∀ r, t.readReg r = s.readReg r ∨ dest i = some r ∧ r ≠ 0#5
  bytes : ∀ a, storesTo s a i = false → Memory.readByte t.mem a = Memory.readByte s.mem a
  loop : SameLoop s t

section

variable {i : Instr} {s t : State}

theorem completes_of_writesReg {rd : RegIx} {v : Word} (hdest : dest i = some rd)
    (h : WritesReg s t rd v (nextPc s i)) : Completes i s t := by
  obtain ⟨regs, pc, bytes, loop⟩ := h
  refine ⟨pc, fun r => ?_, fun a _ => bytes a, loop⟩
  rw [regs]
  split_ifs with hr
  · exact .inr ⟨hr.1 ▸ hdest, hr.2⟩
  · exact .inl rfl

theorem completes_of_writesPc (h : WritesPc s t (nextPc s i)) : Completes i s t := by
  obtain ⟨pc, regs, bytes, loop⟩ := h
  exact ⟨pc, fun r => .inl (regs r), fun a _ => bytes a, loop⟩

theorem completes_of_writesBytes {byteAt : Word → Byte} (hpc : nextPc s i = s.pc + 4#32)
    (hbytes : ∀ a, storesTo s a i = false → byteAt a = Memory.readByte s.mem a)
    (h : WritesBytes s t byteAt) : Completes i s t := by
  obtain ⟨bytes, pc, regs, loop⟩ := h
  exact ⟨pc.trans hpc.symm, fun r => .inl (regs r), fun a ha => (bytes a).trans (hbytes a ha), loop⟩

end

/-! ### The three shapes: a register result, a load or store, a branch -/

section

variable {i : Instr} {s : State} {rd rs1 rs2 : RegIx} {v next imm : Word} {n : Width} {ext : Word → Word}
  {cond : Word → Word → Bool}

theorem finish_completes (hdest : dest i = some rd) (hpc : nextPc s i = next) :
    ∃ t, s.finish rd v next = .next t ∧ Completes i s t := by
  obtain ⟨t, hnext, hwrites⟩ := finish_writesReg s rd v next
  exact ⟨t, hnext, completes_of_writesReg hdest (hpc ▸ hwrites)⟩

theorem load_completes (hdest : dest i = some rd) (hpc : nextPc s i = s.pc + 4#32)
    (haligned : s.alignFault n (s.effAddr rs1 imm) = false) :
    ∃ t, s.load n ext rd rs1 imm = .next t ∧ Completes i s t := by
  obtain ⟨t, hnext, hwrites⟩ := load_writesReg haligned rfl
  exact ⟨t, hnext, completes_of_writesReg hdest (hpc ▸ hwrites)⟩

theorem store_completes (hpc : nextPc s i = s.pc + 4#32) (haligned : s.alignFault n (s.effAddr rs1 imm) = false)
    (hbytes : ∀ a, storesTo s a i = false →
      Memory.readByte (Memory.memWrite s.mem (s.effAddr rs1 imm) n (s.readReg rs2)) a = Memory.readByte s.mem a) :
    ∃ t, s.store n rs1 rs2 imm = .next t ∧ Completes i s t := by
  obtain ⟨t, hnext, hwrites⟩ := store_writesBytes haligned fun _ => rfl
  exact ⟨t, hnext, completes_of_writesBytes hpc hbytes hwrites⟩

theorem branch_completes (h : ∃ t, s.branch cond rs1 rs2 imm = .next t ∧ WritesPc s t (nextPc s i)) :
    ∃ t, s.branch cond rs1 rs2 imm = .next t ∧ Completes i s t := by
  obtain ⟨t, hnext, hwrites⟩ := h
  exact ⟨t, hnext, completes_of_writesPc hwrites⟩

end

/-! ### The bytes a store leaves alone (R63, R68) -/

section

variable {s : State} {rs1 rs2 : RegIx} {imm a v : Word}

theorem memWrite_byte_of_not_storesTo (h : storesTo s a (.sb rs1 rs2 imm) = false) :
    Memory.readByte (Memory.memWrite s.mem (s.effAddr rs1 imm) .byte v) a = Memory.readByte s.mem a := by
  rw [readByte_memWrite_byte, if_neg (of_decide_eq_false h)]

theorem memWrite_half_of_not_storesTo (h : storesTo s a (.sh rs1 rs2 imm) = false) :
    Memory.readByte (Memory.memWrite s.mem (s.effAddr rs1 imm) .half v) a = Memory.readByte s.mem a := by
  obtain ⟨hlow, hhigh⟩ := Bool.or_eq_false_iff.mp h
  rw [readByte_memWrite_half, if_neg (of_decide_eq_false hlow), if_neg (by simpa using hhigh)]

theorem memWrite_word_of_not_storesTo (h : storesTo s a (.sw rs1 rs2 imm) = false) :
    Memory.readByte (Memory.memWrite s.mem (s.effAddr rs1 imm) .word v) a = Memory.readByte s.mem a :=
  (readByte_wordWrite_eq_lane ..).trans (if_neg (of_decide_eq_false h))

end

/-! ### Alignment: `dataFault` is the model's own check -/

theorem dataFault_half_eq (s : State) (a : Word) :
    (decide (s.params.dataAlign = .trap) && decide (a.toNat % 2 = 1)) = s.alignFault .half a := by
  simp [State.alignFault, misaligned, Width.bytes]

theorem dataFault_word_eq (s : State) (a : Word) :
    (decide (s.params.dataAlign = .trap) && decide (a.toNat % 4 ≠ 0)) = s.alignFault .word a := rfl

/-- Every instruction that meets no misaligned access completes. -/
theorem exec_completes {i : Instr} {s : State} (hok : dataFault s i = false) :
    ∃ t, exec i s = .next t ∧ Completes i s t := by
  cases i
  case lb | lbu => exact load_completes rfl rfl (alignFault_byte _)
  case lh | lhu => exact load_completes rfl rfl ((dataFault_half_eq s _).symm.trans hok)
  case lw => exact load_completes rfl rfl hok
  case sb => exact store_completes rfl (alignFault_byte _) fun _ => memWrite_byte_of_not_storesTo
  case sh => exact store_completes rfl ((dataFault_half_eq s _).symm.trans hok) fun _ => memWrite_half_of_not_storesTo
  case sw => exact store_completes rfl hok fun _ => memWrite_word_of_not_storesTo
  case beq => exact branch_completes (branch_writesPc (condEq_eq_true_iff _ _))
  case bne => exact branch_completes (branch_writesPc_of_not (condNe_eq_true_iff _ _))
  case blt => exact branch_completes (branch_writesPc (ltSigned_eq_true_iff _ _))
  case bge => exact branch_completes (branch_writesPc_of_not (geSigned_eq_true_iff _ _))
  case bltu => exact branch_completes (branch_writesPc (ltUnsigned_eq_true_iff _ _))
  case bgeu => exact branch_completes (branch_writesPc_of_not (geUnsigned_eq_true_iff _ _))
  all_goals exact finish_completes rfl rfl

/-- Every instruction that meets a misaligned access under `trap` takes the failure. -/
theorem exec_fails {i : Instr} {s : State} (hfault : dataFault s i = true) :
    ∃ t, exec i s = .next t ∧ Failed s t .unalignedAccess := by
  cases i
  case lh | lhu => exact load_failed ((dataFault_half_eq s _).symm.trans hfault)
  case lw => exact load_failed hfault
  case sh => exact store_failed ((dataFault_half_eq s _).symm.trans hfault)
  case sw => exact store_failed hfault
  all_goals cases hfault

section

variable {i : Instr} {s t : State}

/-- An execution has one outcome, so what it can answer is what these two say. -/
theorem failed_of_exec (h : exec i s = .next t) (hfault : dataFault s i = true) : Failed s t .unalignedAccess := by
  obtain ⟨u, hnext, hfailed⟩ := exec_fails hfault
  exact Host.Outcome.next.inj (h.symm.trans hnext) ▸ hfailed

theorem completes_of_exec (h : exec i s = .next t) (hok : dataFault s i = false) : Completes i s t := by
  obtain ⟨u, hnext, hcompletes⟩ := exec_completes hok
  exact Host.Outcome.next.inj (h.symm.trans hnext) ▸ hcompletes

end

/-! ### The statements -/

/-- Settles O20, from the two ways to execute. -/
theorem everyInstructionCompletesAtTheNextPcOfTheTable :
    Obligations.EveryInstructionCompletesAtTheNextPcOfTheTable := by
  intro i s
  cases hfault : dataFault s i
  case true =>
    obtain ⟨t, hnext, -, -, pc, -⟩ := exec_fails hfault
    exact ⟨t, hnext, pc⟩
  case false =>
    obtain ⟨t, hnext, hcompletes⟩ := exec_completes hfault
    exact ⟨t, hnext, hcompletes.pc⟩

/-- Settles O21, from the two ways to execute. -/
theorem onlyMisalignedHalfAndWordAccessesFail : Obligations.OnlyMisalignedHalfAndWordAccessesFail :=
  fun _ _ _ h => ⟨failed_of_exec h, fun hok => (completes_of_exec h hok).loop⟩

/-- Settles O22: a failing instruction changes no register, a completing one its destination. -/
theorem onlyTheDestinationRegisterChanges : Obligations.OnlyTheDestinationRegisterChanges := by
  intro i s t r h hchanged
  cases hfault : dataFault s i
  case true =>
    obtain ⟨-, -, -, regs, -⟩ := failed_of_exec h hfault
    exact absurd (regs r) hchanged
  case false =>
    obtain ⟨hdest, hne⟩ := ((completes_of_exec h hfault).regs r).resolve_left hchanged
    exact ⟨hdest, hne, rfl⟩

/-- Settles O23: a failing instruction changes no byte, a completing one those it stores to. -/
theorem onlyStoredBytesChange : Obligations.OnlyStoredBytesChange := by
  intro i s t a h hframe
  cases hfault : dataFault s i
  case true =>
    obtain ⟨-, -, -, -, bytes, -⟩ := failed_of_exec h hfault
    exact bytes a
  case false =>
    exact (completes_of_exec h hfault).bytes a (hframe.resolve_right (by rw [hfault]; decide))

/-- An instruction with a destination register stores to no byte. -/
theorem storesTo_of_dest {i : Instr} {rd : RegIx} (hdest : dest i = some rd) (s : State) (a : Word) :
    storesTo s a i = false := by
  cases i
  case sb | sh | sw => cases hdest
  all_goals rfl

/-- Settles O24: x0 is never changed, and there is nothing else to change. -/
theorem destinationZeroChangesOnlyPc : Obligations.DestinationZeroChangesOnlyPc := by
  intro i s hdest hok
  obtain ⟨t, hnext, hcompletes⟩ := exec_completes hok
  have regs : SameRegs s t := fun r => (hcompletes.regs r).resolve_right fun ⟨hr, hne⟩ =>
    hne (Option.some.inj (hr.symm.trans hdest))
  exact ⟨t, hnext, hcompletes.pc, regs, fun a => hcompletes.bytes a (storesTo_of_dest hdest s a), hcompletes.loop⟩

end Sys2Proof.Proofs
end

section
/-! PROOFS of the pseudo-instructions that split a value (spec/30_encoding.md R120). -/

namespace Sys2Proof.Proofs

open Sys2Proof.Machine Sys2Proof.Laws Sys2Proof.Spec

/-! ### The two parts of a value -/

/-- The value and its sign-extended low part agree in the low 12 bits, so their difference is a multiple of 4096. -/
theorem lowClear_sub_lo12 (v : Word) : Imm.lowClear (v - lo12 v) = true := by
  have low : (lo12 v).toNat % 4096 = v.toNat % 4096 := by
    simpa [lo12, BitVec.extractLsb'_toNat] using congrArg BitVec.toNat (extractLsb'_sext (v.extractLsb' 0 12))
  have diff : (v - lo12 v).toNat % 4096 = 0 := by
    rw [BitVec.toNat_sub]
    have := (lo12 v).isLt
    omega
  refine decide_eq_true (BitVec.eq_of_toNat_eq ?_)
  rw [BitVec.toNat_and]
  exact (Nat.and_two_pow_sub_one_eq_mod _ 12).trans diff

/-- So `hi20` loses nothing of it. -/
theorem hi20_add_lo12 (v : Word) : hi20 v + lo12 v = v := by
  have upper : hi20 v = v - lo12 v := immU_eq_self_of_lowClear (lowClear_sub_lo12 v)
  rw [upper, BitVec.sub_add_cancel]

theorem lowClear_hi20 (v : Word) : Imm.lowClear (hi20 v) = true := lowClear_append_zero _

theorem fits12_lo12 (v : Word) : Imm.fits12 (lo12 v) = true := fits12_sext _

/-! ### One or two instructions in order -/

theorem execAll_single {i : Instr} {s t : State} (hi : exec i s = .next t) : execAll [i] s = .next t := by
  simp [execAll, hi]

theorem execAll_pair {i j : Instr} {s t u : State} (hi : exec i s = .next t) (hj : exec j t = .next u) :
    execAll [i, j] s = .next u := by
  simp [execAll, hi, hj]

/-- A second write to the same register is the one that counts. -/
theorem writesReg_trans {s t u : State} {rd : RegIx} {v v' next next' : Word} (h : WritesReg s t rd v next)
    (h' : WritesReg t u rd v' next') : WritesReg s u rd v' next' := by
  obtain ⟨regs, -, bytes, run, report, params⟩ := h
  obtain ⟨regs', pc', bytes', run', report', params'⟩ := h'
  refine ⟨fun r => ?_, pc', fun a => (bytes' a).trans (bytes a), run'.trans run, report'.trans report,
    params'.trans params⟩
  rw [regs', regs]
  split_ifs <;> rfl

theorem writesReg_readReg {s t : State} {rd : RegIx} {v next : Word} (h : WritesReg s t rd v next) (hrd : rd ≠ 0#5) :
    t.readReg rd = v := (h.1 rd).trans (if_pos ⟨rfl, hrd⟩)

/-- To x0 any value is written alike. -/
theorem writesReg_zero {s t : State} {v v' next : Word} (h : WritesReg s t 0#5 v next) : WritesReg s t 0#5 v' next := by
  obtain ⟨regs, rest⟩ := h
  refine ⟨fun r => (regs r).trans ?_, rest⟩
  have : ¬ (r = 0#5 ∧ r ≠ 0#5) := fun ⟨hr, hne⟩ => hne hr
  rw [if_neg this, if_neg this]

/-- A lui or auipc result `u`, then an addi to the same register. -/
theorem addi_after_writesReg {s t : State} {rd : RegIx} {u imm next : Word} (h : WritesReg s t rd u next) :
    ∃ w, exec (.addi rd rd imm) t = .next w ∧ WritesReg s w rd (u + imm) (next + 4#32) := by
  obtain ⟨w, hexec, hwrites⟩ := finish_writesReg t rd (t.readReg rd + imm) t.pcPlus4
  have hpc : t.pcPlus4 = next + 4#32 := congrArg (· + 4#32) h.2.1
  refine ⟨w, hexec, ?_⟩
  rw [hpc] at hwrites
  by_cases hrd : rd = 0#5
  · subst hrd
    exact writesReg_zero (writesReg_trans h hwrites)
  · rw [writesReg_readReg h hrd] at hwrites
    exact writesReg_trans h hwrites

/-! ### The expansions -/

/-- The condition of `li`'s one-instruction form is that of a 12-bit immediate. -/
theorem fits12_iff (imm : Word) : Imm.fits12 imm = true ↔ -2048 ≤ imm.toInt ∧ imm.toInt ≤ 2047 := by
  simp [Imm.fits12]

theorem expand_li_of_fits12 (rd : RegIx) {v : Word} (hshort : Imm.fits12 v = true) :
    (Pseudo.li rd v).expand = [.addi rd 0#5 v] := if_pos ((fits12_iff v).mp hshort)

theorem expand_li_of_not_fits12 (rd : RegIx) {v : Word} (hlong : ¬ Imm.fits12 v = true) :
    (Pseudo.li rd v).expand = [.lui rd (hi20 v), .addi rd rd (lo12 v)] := if_neg (mt (fits12_iff v).mpr hlong)

/-- Of each expansion the upper and the low part are in range; `li` of a short value is one addi of it. -/
theorem expand_wellFormed (rd : RegIx) (v : Word) :
    ∀ p ∈ [Pseudo.li rd v, Pseudo.la rd v, Pseudo.call v], ∀ i ∈ p.expand, i.wellFormed = true := by
  have pair {i j : Instr} (hi : i.wellFormed = true) (hj : j.wellFormed = true) :
      ∀ k ∈ [i, j], k.wellFormed = true := by simp [hi, hj]
  have li : ∀ i ∈ (Pseudo.li rd v).expand, i.wellFormed = true := by
    by_cases hshort : Imm.fits12 v = true
    · rw [expand_li_of_fits12 rd hshort]
      exact List.forall_mem_singleton.mpr hshort
    · rw [expand_li_of_not_fits12 rd hshort]
      exact pair (lowClear_hi20 v) (fits12_lo12 v)
  simp only [List.forall_mem_cons]
  exact ⟨li, pair (lowClear_hi20 v) (fits12_lo12 v), pair (lowClear_hi20 v) (fits12_lo12 v), by simp⟩

theorem li_writesReg (s : State) (rd : RegIx) (v : Word) : ∃ t, execAll (Pseudo.li rd v).expand s = .next t ∧
    WritesReg s t rd v (s.pc + BitVec.ofNat 32 (4 * (Pseudo.li rd v).expand.length)) := by
  by_cases hshort : Imm.fits12 v = true
  · rw [expand_li_of_fits12 rd hshort]
    obtain ⟨t, haddi, hwrites⟩ := regImm_writesReg (s := s) (rd := rd) (rs1 := 0#5) (BitVec.zero_add v)
    exact ⟨t, execAll_single haddi, hwrites⟩
  · rw [expand_li_of_not_fits12 rd hshort]
    obtain ⟨t, hlui, hupper⟩ := finish_writesReg s rd (hi20 v) s.pcPlus4
    obtain ⟨u, haddi, hwrites⟩ := addi_after_writesReg (imm := lo12 v) hupper
    rw [hi20_add_lo12, State.pcPlus4, BitVec.add_assoc] at hwrites
    exact ⟨u, execAll_pair hlui haddi, hwrites⟩

theorem la_writesReg (s : State) (rd : RegIx) (v : Word) :
    ∃ t, execAll (Pseudo.la rd v).expand s = .next t ∧ WritesReg s t rd (s.pc + v) (s.pc + 8#32) := by
  obtain ⟨t, hauipc, hupper⟩ := finish_writesReg s rd (s.pcTarget (hi20 v)) s.pcPlus4
  obtain ⟨u, haddi, hwrites⟩ := addi_after_writesReg (imm := lo12 v) hupper
  rw [State.pcTarget, BitVec.add_assoc, hi20_add_lo12, State.pcPlus4, BitVec.add_assoc] at hwrites
  exact ⟨u, execAll_pair hauipc haddi, hwrites⟩

theorem call_writesReg (s : State) (v : Word) : ∃ t, execAll (Pseudo.call v).expand s = .next t ∧
    WritesReg s t 1#5 (s.pc + 8#32) ((s.pc + v) &&& 0xFFFFFFFE#32) := by
  obtain ⟨t, hauipc, hupper⟩ := finish_writesReg s 1#5 (s.pcTarget (hi20 v)) s.pcPlus4
  obtain ⟨u, hjalr, hjump⟩ := finish_writesReg t 1#5 t.pcPlus4 (t.jalrTarget 1#5 (lo12 v))
  have hwrites := writesReg_trans hupper hjump
  have link : t.pcPlus4 = s.pc + 8#32 := by
    rw [State.pcPlus4, hupper.2.1, State.pcPlus4, BitVec.add_assoc]
    rfl
  have target : t.jalrTarget 1#5 (lo12 v) = (s.pc + v) &&& 0xFFFFFFFE#32 := by
    rw [State.jalrTarget, writesReg_readReg hupper (by decide), State.pcTarget, BitVec.add_assoc, hi20_add_lo12]
    rfl
  rw [link, target] at hwrites
  exact ⟨u, execAll_pair hauipc hjalr, hwrites⟩

/-- Settles O25, expansion by expansion. -/
theorem splitPseudoInstructionsComputeTheWholeValue : Obligations.SplitPseudoInstructionsComputeTheWholeValue :=
  fun s rd v => ⟨expand_wellFormed rd v, li_writesReg s rd v, la_writesReg s rd v, call_writesReg s v⟩

end Sys2Proof.Proofs
end

section
/-! PROOFS of the step's rules (spec/40_engine.md R150 to R157) and failures (spec/60_exceptions.md R301 to R304). -/

namespace Sys2Proof.Proofs

open Sys2Proof.Machine Sys2Proof.Laws Sys2Proof.Spec

variable {s t : State}

/-! ### The fetch (R151, R152) -/

theorem fetchWord_eq_wordAt (s : State) : s.fetchWord = wordAt s s.pc := memRead_word_eq_wordAt s s.pc

theorem fetchFault_eq_true_iff : s.fetchFault = true ↔ s.params.fetchAlign = .trap ∧ s.pc.toNat % 4 ≠ 0 := by
  rw [State.fetchFault, misaligned, Bool.and_eq_true, decide_eq_true_eq, decide_eq_true_eq, Width.bytes]

theorem fetchFault_eq_false_iff : s.fetchFault = false ↔ (s.params.fetchAlign = .trap → s.pc.toNat % 4 = 0) := by
  rw [← Bool.not_eq_true, fetchFault_eq_true_iff]
  tauto

theorem hooks_eq_false_iff {w : Word} :
    s.hooks w = false ↔ (s.params.systemHook = .present → w.extractLsb' 0 7 ≠ 0x73#7) := by
  rw [← Bool.not_eq_true, State.hooks, Bool.and_eq_true, decide_eq_true_eq, decide_eq_true_eq, Field.opcode]
  tauto

/-! ### The equations of the step (R150) -/

theorem step_of_halted (hrun : s.run = .halted) : step s = .fault (.halted s.report) := by
  rw [step, hrun]

theorem step_of_haltHolds (hrun : s.run = .running) (hhalt : s.haltHolds = true) : step s = .next s.cleanHalt := by
  simp [step, hrun, State.beforeDecode, hhalt]

theorem step_of_fetchFault (hrun : s.run = .running) (hhalt : s.haltHolds = false) (hfetch : s.fetchFault = true) :
    step s = .next (s.raise .unalignedAccess) := by
  simp [step, hrun, State.beforeDecode, hhalt, hfetch]

theorem step_of_hooks (hrun : s.run = .running) (hhalt : s.haltHolds = false) (hfetch : s.fetchFault = false)
    (hhook : s.hooks s.fetchWord = true) : step s = .next (s.ofHook (Config.systemHook s s.fetchWord)) := by
  simp [step, hrun, State.beforeDecode, hhalt, hfetch, hhook]

theorem step_of_beforeDecode_none (hrun : s.run = .running) (hbefore : s.beforeDecode = none) :
    step s = execDecoded (decode s.params.fence (wordAt s s.pc)) s := by
  simp [step, hrun, hbefore, State.decodeFetched, fetchWord_eq_wordAt]

/-- What `Undisturbed` excludes is what can come before decode. -/
theorem undisturbed_iff : Undisturbed s ↔ s.run = .running ∧ s.beforeDecode = none := by
  rw [beforeDecode_none, fetchFault_eq_false_iff, hooks_eq_false_iff]
  rfl

theorem step_of_undisturbed (h : Undisturbed s) :
    step s = execDecoded (decode s.params.fence (wordAt s s.pc)) s := by
  obtain ⟨hrun, hbefore⟩ := undisturbed_iff.mp h
  exact step_of_beforeDecode_none hrun hbefore

theorem step_of_decode_instr {i : Instr} (h : Undisturbed s)
    (hdecode : decode s.params.fence (wordAt s s.pc) = .instr i) : step s = exec i s := by
  rw [step_of_undisturbed h, hdecode, execDecoded]

theorem step_of_decode_unknown {k : UnknownKind} {w : Word} (h : Undisturbed s)
    (hdecode : decode s.params.fence (wordAt s s.pc) = .unknown k w) : step s = .next (s.raise (unknownError k)) := by
  rw [step_of_undisturbed h, hdecode, execDecoded]

/-- A failing step, whatever it fails with. -/
theorem failed_of_step_raise {kind : ErrorKind} (h : step s = .next (s.raise kind)) :
    ∃ t, step s = .next t ∧ Failed s t kind :=
  ⟨_, h, raise_failed s kind⟩

/-! ### What a step decodes -/

/-- Settles O45, from the equation of the step in an undisturbed state. -/
theorem stepRunsTheDecodedInstruction : Obligations.StepRunsTheDecodedInstruction :=
  fun _ _ => step_of_decode_instr

/-- Settles O46: each kind fails with its own error. -/
theorem stepOfUnknownWordHaltsWithItsRecord : Obligations.StepOfUnknownWordHaltsWithItsRecord :=
  fun _ h => ⟨fun hdecode => failed_of_step_raise (step_of_decode_unknown h hdecode),
    fun hdecode => failed_of_step_raise (step_of_decode_unknown h hdecode)⟩

/-- A word that decodes to an instruction is no SYSTEM word, so no hook takes it. -/
theorem not_hooks_of_decode {fp : FencePolicy} {w : Word} {i : Instr} (hdecode : decode fp w = .instr i) :
    s.hooks w = false := by
  obtain ⟨-, system⟩ := fenceAndSystemWordsDecodeAsTheirPoliciesSay w
  rw [hooks_eq_false_iff]
  intro _ hsys
  cases (system fp hsys).symm.trans hdecode

/-- Settles O47: under `mask` no fetch fails, and a word that decodes is not the hook's. -/
theorem fetchAlignmentFollowsItsPolicy : Obligations.FetchAlignmentFollowsItsPolicy := by
  intro s hrun hhalt
  refine ⟨fetchWord_eq_wordAt s, fun htrap hlow => ?_, fun hmask i hdecode => ?_⟩
  · exact failed_of_step_raise (step_of_fetchFault hrun hhalt (fetchFault_eq_true_iff.mpr ⟨htrap, hlow⟩))
  · have allowed : s.params.fetchAlign = .trap → s.pc.toNat % 4 = 0 := fun htrap => by
      rw [hmask] at htrap
      cases htrap
    have unhooked : s.hooks s.fetchWord = false := fetchWord_eq_wordAt s ▸ not_hooks_of_decode hdecode
    exact step_of_decode_instr ⟨hrun, hhalt, allowed, hooks_eq_false_iff.mp unhooked⟩ hdecode

/-- Settles O48: the clean halt changes the loop's state alone. -/
theorem haltPredicateHaltsCleanlyBeforeFetch : Obligations.HaltPredicateHaltsCleanlyBeforeFetch := by
  intro s hrun hreport hhalt
  have status : s.cleanHalt.status = .cleanHalt := by simp [State.status, hreport]
  exact ⟨_, step_of_haltHolds hrun hhalt, cleanHalt_run s, hreport, cleanHalt_pc s, fun r => cleanHalt_readReg s r,
    fun _ => rfl, cleanHalt_params s, status⟩

theorem ofHook_report_of_halted {answer : State} (hhalted : answer.run = .halted) :
    (s.ofHook answer).report = answer.report :=
  if_neg (by rw [hhalted]; decide)

/-- Settles O49: with a hook the answer is the next state; without one the opcode is not supported. -/
theorem systemWordGoesToTheHookOrFails : Obligations.SystemWordGoesToTheHookOrFails := by
  intro s hrun hhalt hfetch hsys
  have allowed := fetchFault_eq_false_iff.mpr hfetch
  refine ⟨fun hpresent => ?_, fun habsent => ?_⟩
  · have hhook : s.hooks s.fetchWord = true := by
      rw [fetchWord_eq_wordAt]
      exact Bool.and_eq_true_iff.mpr ⟨decide_eq_true hsys, decide_eq_true hpresent⟩
    refine ⟨_, step_of_hooks hrun hhalt allowed hhook, ?_⟩
    rw [fetchWord_eq_wordAt]
    exact ⟨fun r => ofHook_readReg .., fun a => readByte_canonical .., ofHook_pc .., ofHook_run ..,
      fun hhalted => ofHook_report_of_halted hhalted, fun hrunning => if_pos hrunning, ofHook_params ..⟩
  · have hnone : s.params.systemHook = .present → s.fetchWord.extractLsb' 0 7 ≠ 0x73#7 := fun hpresent => by
      rw [habsent] at hpresent
      cases hpresent
    obtain ⟨-, system⟩ := fenceAndSystemWordsDecodeAsTheirPoliciesSay (wordAt s s.pc)
    exact failed_of_step_raise (step_of_decode_unknown ⟨hrun, hhalt, hfetch, hnone⟩ (system _ hsys))

/-- Settles O50: what comes before decode is a next state, and so is every outcome of execution. -/
theorem haltedHasNoStepAndRunningAlwaysHasOne : Obligations.HaltedHasNoStepAndRunningAlwaysHasOne := by
  refine fun s => ⟨step_of_halted, fun hrun => ?_⟩
  cases hbefore : s.beforeDecode
  case some t => exact ⟨t, by simp [step, hrun, hbefore]⟩
  case none =>
    rw [step_of_beforeDecode_none hrun hbefore]
    cases decode s.params.fence (wordAt s s.pc)
    case unknown k w => exact ⟨_, rfl⟩
    case instr i =>
      obtain ⟨t, hexec, -⟩ := everyInstructionCompletesAtTheNextPcOfTheTable i s
      exact ⟨t, hexec⟩

/-! ### A store into the word of the next fetch (R80) -/

/-- Settles O53: the word written is the word read back. -/
theorem storeIsSeenByTheNextFetch : Obligations.StoreIsSeenByTheNextFetch := by
  intro s rs1 rs2 imm hok hword
  obtain ⟨t, ht⟩ : ∃ t : State, t =
      { s with mem := Memory.memWrite s.mem (s.effAddr rs1 imm) .word (s.readReg rs2), pc := s.pcPlus4 } := ⟨_, rfl⟩
  have fetched : t.fetchWord = s.readReg rs2 := by
    rw [ht]
    exact (wordRead_wordWrite ..).trans (if_pos hword.symm)
  refine ⟨t, store_next.mpr (.inr ⟨hok, ht⟩), fetched, fun i hundisturbed hdecode =>
    step_of_decode_instr hundisturbed ?_⟩
  rw [← fetchWord_eq_wordAt, fetched]
  exact hdecode

/-! ### A word placed for the next fetch (R333) -/

theorem tableWord_eq_ofNat (w : Nat) : tableWord 32 w = BitVec.ofNat 32 w :=
  BitVec.eq_of_toNat_eq (by rw [tableWord, BitVec.toNat_ofNat, BitVec.toNat_ofNat, Nat.mod_mod])

/-- The placed word is the fetched one, and nothing comes before it is decoded. -/
theorem undisturbed_placeWord {w : Word} {i : Instr} (hdecode : decode s.params.fence w = .instr i) :
    (s.placeWord w).fetchWord = w ∧ Undisturbed (s.placeWord w) := by
  have fetched : (s.placeWord w).fetchWord = w := (wordRead_wordWrite ..).trans (if_pos rfl)
  have unhooked : (s.placeWord w).hooks w = false := not_hooks_of_decode hdecode
  exact ⟨fetched, rfl, rfl, nofun, hooks_eq_false_iff.mp (fetched.symm ▸ unhooked)⟩

/-- Settles O57: the step is undisturbed, and `WordWrite` changes the placed word alone. -/
theorem placedWordIsTheNextInstructionRun : Obligations.PlacedWordIsTheNextInstructionRun := by
  intro s w i hdecode
  rw [State.withFetchWord, tableWord_eq_ofNat]
  obtain ⟨fetched, hundisturbed⟩ := undisturbed_placeWord hdecode
  have decoded : decode (s.placeWord (BitVec.ofNat 32 w)).params.fence
      (wordAt (s.placeWord (BitVec.ofNat 32 w)) (s.placeWord (BitVec.ofNat 32 w)).pc) = .instr i := by
    rw [← fetchWord_eq_wordAt, fetched]
    exact hdecode
  exact ⟨step_of_decode_instr hundisturbed decoded, fun r => placeWord_readReg .., placeWord_pc ..,
    fun a hne => (readByte_wordWrite_eq_lane ..).trans (if_neg hne)⟩

/-! ### What a step can do when no hook takes its word (R303) -/

/-- The four ways of a step whose word no hook takes, in the order in which they are tried. -/
inductive Unhooked (s : State) : Prop where
  | halts (hhalt : s.haltHolds = true) (hstep : step s = .next s.cleanHalt)
  | fetchFails (hhalt : s.haltHolds = false) (hfetch : s.params.fetchAlign = .trap ∧ s.pc.toNat % 4 ≠ 0)
      (hstep : step s = .next (s.raise .unalignedAccess))
  | refuses (h : Undisturbed s) (k : UnknownKind) (w : Word)
      (hdecode : decode s.params.fence (wordAt s s.pc) = .unknown k w)
      (hstep : step s = .next (s.raise (unknownError k)))
  | executes (h : Undisturbed s) (i : Instr) (hdecode : decode s.params.fence (wordAt s s.pc) = .instr i)
      (hstep : step s = exec i s)

theorem unhooked_of_running (hrun : s.run = .running)
    (hhook : s.params.systemHook = .present → (wordAt s s.pc).extractLsb' 0 7 ≠ 0x73#7) : Unhooked s := by
  cases hhalt : s.haltHolds
  case true => exact .halts hhalt (step_of_haltHolds hrun hhalt)
  case false =>
    cases hfetch : s.fetchFault
    case true => exact .fetchFails hhalt (fetchFault_eq_true_iff.mp hfetch) (step_of_fetchFault hrun hhalt hfetch)
    case false =>
      have h : Undisturbed s := ⟨hrun, hhalt, fetchFault_eq_false_iff.mp hfetch, fetchWord_eq_wordAt s ▸ hhook⟩
      cases hdecode : decode s.params.fence (wordAt s s.pc)
      case unknown k w => exact .refuses h k w hdecode (step_of_decode_unknown h hdecode)
      case instr i => exact .executes h i hdecode (step_of_decode_instr h hdecode)

/-- Settles O51, way by way. -/
theorem errorsAreReportedInTheStatedPriority : Obligations.ErrorsAreReportedInTheStatedPriority := by
  intro s hrun hreport hhook
  cases unhooked_of_running hrun hhook
  case halts hhalt hstep =>
    exact ⟨_, hstep, hreport.trans (if_pos hhalt).symm⟩
  case fetchFails hhalt hfetch hstep =>
    refine ⟨_, hstep, ?_⟩
    rw [if_neg (Bool.eq_false_iff.mp hhalt), if_pos hfetch, raise_report, fetchWord_eq_wordAt]
  case refuses h k w hdecode hstep =>
    obtain ⟨-, hhalt, hfetch, -⟩ := h
    refine ⟨_, hstep, ?_⟩
    rw [if_neg (Bool.eq_false_iff.mp hhalt), if_neg (by tauto), raise_report, fetchWord_eq_wordAt, hdecode]
    cases k <;> rfl
  case executes h i hdecode hstep =>
    obtain ⟨-, hhalt, hfetch, -⟩ := h
    obtain ⟨t, hexec, -⟩ := everyInstructionCompletesAtTheNextPcOfTheTable i s
    refine ⟨t, hstep.trans hexec, ?_⟩
    rw [if_neg (Bool.eq_false_iff.mp hhalt), if_neg (by tauto), hdecode]
    change t.report = if dataFault s i then some ⟨.unalignedAccess, s.pc, wordAt s s.pc⟩ else none
    cases hfault : dataFault s i
    case true =>
      obtain ⟨-, report, -⟩ := failed_of_exec hexec hfault
      exact report
    case false =>
      obtain ⟨-, report, -⟩ := (completes_of_exec hexec hfault).loop
      exact report.trans hreport

/-- Settles O52: a clean halt and a completing instruction record nothing. -/
theorem everyRecordedFailureIsPrecise : Obligations.EveryRecordedFailureIsPrecise := by
  intro s t r hrun hreport hhook hnext hrecord
  have failed_of_raise {kind : ErrorKind} (hstep : step s = .next (s.raise kind)) : Failed s t r.kind := by
    cases hstep.symm.trans hnext
    cases hrecord
    exact raise_failed s kind
  cases unhooked_of_running hrun hhook
  case halts hhalt hstep =>
    cases hstep.symm.trans hnext
    cases hrecord.symm.trans hreport
  case fetchFails hhalt hfetch hstep => exact failed_of_raise hstep
  case refuses h k w hdecode hstep => exact failed_of_raise hstep
  case executes h i hdecode hstep =>
    have hexec := hstep.symm.trans hnext
    cases hfault : dataFault s i
    case true =>
      have hfailed := failed_of_exec hexec hfault
      have ⟨_, report, _⟩ := hfailed
      cases hrecord.symm.trans report
      exact hfailed
    case false =>
      obtain ⟨-, report, -⟩ := (completes_of_exec hexec hfault).loop
      cases (hrecord.symm.trans report).trans hreport

end Sys2Proof.Proofs
end

section
/-! PROOFS of what every step keeps: the parameters (spec/00_scope.md R11), the states' invariant (spec/10_state.md
R32, R45; spec/20_memory.md R60), and an even pc (spec/40_engine.md R156). -/

namespace Sys2Proof.Proofs

open Sys2Proof.Machine Sys2Proof.Laws Sys2Proof.Spec

variable {s t : State}

/-- What holds of a clean halt, a failure, a hook's answer and whatever an instruction does holds after a step. -/
theorem of_step {P : State → Prop} (hstep : step s = .next t) (hclean : P s.cleanHalt)
    (hraise : ∀ kind, P (s.raise kind)) (hhook : ∀ answer, P (s.ofHook answer)) (hexec : Shape s t → P t) : P t := by
  obtain ⟨-, hbefore | ⟨-, ⟨i, -, h⟩ | ⟨k, w, -, rfl⟩⟩⟩ := step_cases hstep
  · rcases beforeDecode_some hbefore with ⟨-, rfl⟩ | ⟨-, -, rfl⟩ | ⟨-, -, -, rfl⟩
    · exact hclean
    · exact hraise _
    · exact hhook _
  · exact hexec (exec_shape h)
  · exact hraise _

/-! ### The parameters -/

theorem params_of_shape (h : Shape s t) : t.params = s.params := by
  cases h
  case register rd v next h => rw [h, setPc_params, writeReg_params]
  case memory a n v h => rw [h]
  case failure h => rw [h, raise_params]

/-- Settles O56, from all that a step can do. -/
theorem stepKeepsTheParameters : Obligations.StepKeepsTheParameters :=
  fun s _ hstep => of_step (P := fun u => u.params = s.params) hstep (cleanHalt_params s)
    (fun kind => raise_params s kind) (fun answer => ofHook_params s answer) params_of_shape

/-! ### The invariant -/

theorem inv_cleanHalt (h : s.Inv) : s.cleanHalt.Inv := ⟨h.memory, h.zero, nofun⟩

theorem inv_raise (h : s.Inv) (kind : ErrorKind) : (s.raise kind).Inv := ⟨h.memory, h.zero, nofun⟩

/-- A hook's answer is written in the canonical form, whatever it is (log 8). -/
theorem inv_ofHook (s answer : State) : (s.ofHook answer).Inv :=
  ⟨wf_canonical _, ofHook_slot_zero .., fun hrunning => if_pos hrunning⟩

theorem inv_of_shape (h : s.Inv) (hshape : Shape s t) : t.Inv := by
  cases hshape
  case register rd v next ht =>
    subst ht
    refine ⟨?_, ?_, ?_⟩
    · rw [setPc_mem, writeReg_mem]
      exact h.memory
    · rw [setPc_x, writeReg_slot_zero]
      exact h.zero
    · rw [setPc_run, writeReg_run, setPc_report, writeReg_report]
      exact h.running
  case memory a n v ht =>
    subst ht
    exact ⟨wf_memWrite _ _ _ _ h.memory, h.zero, h.running⟩
  case failure ht => exact ht ▸ inv_raise h _

/-- Settles O54, from all that a step can do. -/
theorem stepKeepsTheStateInvariant : Obligations.StepKeepsTheStateInvariant :=
  fun s _ h hstep => of_step hstep (inv_cleanHalt h) (inv_raise h) (inv_ofHook s) (inv_of_shape h)

/-! ### An even pc -/

theorem even_add {a b : Word} (ha : a.toNat % 2 = 0) (hb : b.toNat % 2 = 0) : (a + b).toNat % 2 = 0 := by
  rw [BitVec.toNat_add]
  omega

theorem even_of_fits13Even {imm : Word} (h : Imm.fits13Even imm = true) : imm.toNat % 2 = 0 := by
  have even : imm.getLsbD 0 = false := by simpa using (Bool.and_eq_true_iff.mp h).2
  exact toNat_mod_two_eq_zero_of_getLsbD_zero even

theorem even_of_fits21Even {imm : Word} (h : Imm.fits21Even imm = true) : imm.toNat % 2 = 0 :=
  toNat_mod_two_eq_zero_of_getLsbD_zero ((fits21Even_iff imm).mp h).2

theorem even_and_not_one (a : Word) : (a &&& ~~~1#32).toNat % 2 = 0 := by
  rw [and_not_one_eq_ofNat, BitVec.toNat_ofNat]
  omega

/-- Branch and jal offsets that an encoding exists for are even, and jalr clears bit 0. -/
theorem nextPc_even {i : Instr} (hpc : s.pc.toNat % 2 = 0) (hwf : i.wellFormed = true) :
    (nextPc s i).toNat % 2 = 0 := by
  have sequential : (s.pc + 4#32).toNat % 2 = 0 := even_add hpc rfl
  cases i
  case beq | bne | blt | bge | bltu | bgeu =>
    have taken := even_add hpc (even_of_fits13Even hwf)
    simp only [nextPc]
    split_ifs <;> assumption
  case jal => exact even_add hpc (even_of_fits21Even hwf)
  case jalr => exact even_and_not_one _
  all_goals exact sequential

/-- Settles O55: what is executed is well-formed, since it was decoded. -/
theorem stepKeepsThePcEven : Obligations.StepKeepsThePcEven := by
  intro s t hhook hpc hnext
  have hrun := (step_cases hnext).1
  cases unhooked_of_running hrun hhook
  case halts hhalt hstep =>
    cases hstep.symm.trans hnext
    exact hpc
  case fetchFails hhalt hfetch hstep =>
    cases hstep.symm.trans hnext
    exact hpc
  case refuses h k w hdecode hstep =>
    cases hstep.symm.trans hnext
    exact hpc
  case executes h i hdecode hstep =>
    obtain ⟨u, hexec, pc⟩ := everyInstructionCompletesAtTheNextPcOfTheTable i s
    cases (hstep.trans hexec).symm.trans hnext
    rw [pc]
    split_ifs
    · exact hpc
    · exact nextPc_even hpc (wellFormed_of_decode hdecode)

end Sys2Proof.Proofs
end
